-- ==== Sys2Proof/Word.lean ====
section
/-! DEFINITION. The word type and the readings of a word (00_scope.md section 4, rule R9). -/

namespace Sys2Proof

/-- A word: 32 bits, numbered 31 down to 0 (R9, XLEN = 32). -/
abbrev Word := BitVec 32

/-- A register index: 5 bits, exactly 0..31 (R9, R18, R49), so an index outside 0..31 cannot be written. -/
abbrev RegIdx := BitVec 5

/-- `u(v)`: a word as the unsigned integer it is identified with, in 0 .. 2^32-1. -/
def uval (v : Word) : Int := (v.toNat : Int)

/-- `s(v)`: the two's-complement reading, `u(v)` when bit 31 is clear and `u(v) - 2^32` when it is set. -/
def sval (v : Word) : Int := if v.msb then uval v - 4294967296 else uval v

/-- `w32(n)`: the one word congruent to the integer `n` modulo 2^32, whatever the sign and size of `n`. -/
def w32 (n : Int) : Word := BitVec.ofInt 32 n

end Sys2Proof
end

