-- ==== Sys2Proof/Syntax.lean ====
section
/-! DEFINITION. Operations, the raw instruction descriptor, the 27 instructions of the
core and the pseudo-instructions. -/

namespace Sys2Proof

/-- The 18 operations of the Arithmetic Operation Table (00_scope.md R3, 30_encoding.md R51). -/
inductive Op where
  | add | sub | and | or | xor | sll | srl | sra | slt | sltu
  | mul | mulh | mulhu | mulhsu | div | divu | rem | remu
  deriving DecidableEq, Repr

/-- The descriptor type: register-register or register-immediate (R48, R50). -/
inductive Ty where
  | R | I
  deriving DecidableEq, Repr

/-- The raw instruction descriptor the core consumes (R48, widths R49). -/
structure Descriptor where
  op  : Op
  rd  : RegIdx
  rs1 : RegIdx
  /-- `rs2_or_imm`: with type R the index of rs2 (0..31), with type I the immediate, a whole word (R52). -/
  c   : Word
  ty  : Ty
  deriving DecidableEq, Repr

/-- The 27 instructions, one constructor for each row of opcode_table.json. A register-immediate instruction
carries its immediate as the word `c` of its descriptor (R52): the descriptor level admits every word there, the
binary layer only those of `Instr.wf`. -/
inductive Instr where
  | add    (rd rs1 rs2 : RegIdx)
  | sub    (rd rs1 rs2 : RegIdx)
  | sll    (rd rs1 rs2 : RegIdx)
  | slt    (rd rs1 rs2 : RegIdx)
  | sltu   (rd rs1 rs2 : RegIdx)
  | xor    (rd rs1 rs2 : RegIdx)
  | srl    (rd rs1 rs2 : RegIdx)
  | sra    (rd rs1 rs2 : RegIdx)
  | or     (rd rs1 rs2 : RegIdx)
  | and    (rd rs1 rs2 : RegIdx)
  | mul    (rd rs1 rs2 : RegIdx)
  | mulh   (rd rs1 rs2 : RegIdx)
  | mulhsu (rd rs1 rs2 : RegIdx)
  | mulhu  (rd rs1 rs2 : RegIdx)
  | div    (rd rs1 rs2 : RegIdx)
  | divu   (rd rs1 rs2 : RegIdx)
  | rem    (rd rs1 rs2 : RegIdx)
  | remu   (rd rs1 rs2 : RegIdx)
  | addi   (rd rs1 : RegIdx) (c : Word)
  | slti   (rd rs1 : RegIdx) (c : Word)
  | sltiu  (rd rs1 : RegIdx) (c : Word)
  | xori   (rd rs1 : RegIdx) (c : Word)
  | ori    (rd rs1 : RegIdx) (c : Word)
  | andi   (rd rs1 : RegIdx) (c : Word)
  | slli   (rd rs1 : RegIdx) (c : Word)
  | srli   (rd rs1 : RegIdx) (c : Word)
  | srai   (rd rs1 : RegIdx) (c : Word)
  deriving DecidableEq, Repr

/-- The nine pseudo-instructions that expand to one instruction of the core (30_encoding.md R66). `li` takes the
12 bits of an immediate in -2048..2047. -/
inductive Pseudo where
  | nop
  | mv   (rd rs : RegIdx)
  | li   (rd : RegIdx) (imm : BitVec 12)
  | not  (rd rs : RegIdx)
  | neg  (rd rs : RegIdx)
  | seqz (rd rs : RegIdx)
  | snez (rd rs : RegIdx)
  | sltz (rd rs : RegIdx)
  | sgtz (rd rs : RegIdx)
  deriving DecidableEq, Repr

end Sys2Proof
end

