-- ==== Sys2Proof/WellFormed.lean ====
section
/-! DEFINITION. Which instructions have a binary encoding: what an immediate may be in an instruction word. -/

namespace Sys2Proof

/-- R56: the words a sign-extended 12-bit immediate reaches, 0x00000000..0x000007FF and 0xFFFFF800..0xFFFFFFFF. -/
def fitsImm12 (c : Word) : Bool := c.toNat ≤ 0x7FF || 0xFFFFF800 ≤ c.toNat

/-- R57: the words a 5-bit shift amount reaches, 0..31. -/
def fitsShamt (c : Word) : Bool := c.toNat ≤ 31

/-- An instruction is well formed when some instruction word carries it. The meaning of an instruction does not
ask for this: a descriptor's immediate may be any word (R52). -/
def Instr.wf : Instr → Bool
  | .add _ _ _    => true
  | .sub _ _ _    => true
  | .sll _ _ _    => true
  | .slt _ _ _    => true
  | .sltu _ _ _   => true
  | .xor _ _ _    => true
  | .srl _ _ _    => true
  | .sra _ _ _    => true
  | .or _ _ _     => true
  | .and _ _ _    => true
  | .mul _ _ _    => true
  | .mulh _ _ _   => true
  | .mulhsu _ _ _ => true
  | .mulhu _ _ _  => true
  | .div _ _ _    => true
  | .divu _ _ _   => true
  | .rem _ _ _    => true
  | .remu _ _ _   => true
  | .addi _ _ c   => fitsImm12 c
  | .slti _ _ c   => fitsImm12 c
  | .sltiu _ _ c  => fitsImm12 c
  | .xori _ _ c   => fitsImm12 c
  | .ori _ _ c    => fitsImm12 c
  | .andi _ _ c   => fitsImm12 c
  | .slli _ _ c   => fitsShamt c
  | .srli _ _ c   => fitsShamt c
  | .srai _ _ c   => fitsShamt c

end Sys2Proof
end

