-- ==== Sys2Proof/Decode.lean ====
section
/-! DEFINITION. The binary layer (30_encoding.md R53 to R64): instruction words to instructions, and back; and the
descriptor of an instruction (R60). The layer is the spec's own addition (92_eei_decisions.md D1): log entry 2. -/

namespace Sys2Proof

/-- `sext_12` (00_scope.md section 4). -/
def sext12 (v : BitVec 12) : Word := v.signExtend 32

/-- `zext_5` (00_scope.md section 4). -/
def zext5 (v : BitVec 5) : Word := v.setWidth 32

/-- Bits 11:7 (R54, R55). -/
def rdOf (w : Word) : RegIdx := w.extractLsb' 7 5

/-- Bits 19:15 (R54, R55). -/
def rs1Of (w : Word) : RegIdx := w.extractLsb' 15 5

/-- Bits 24:20 (R54). -/
def rs2Of (w : Word) : RegIdx := w.extractLsb' 20 5

/-- R56: `sext_12(word[31:20])`. -/
def immOf (w : Word) : Word := sext12 (w.extractLsb' 20 12)

/-- R57: `zext_5(word[24:20])`. -/
def shamtOf (w : Word) : Word := zext5 (w.extractLsb' 20 5)

/-- One row of the opcode maps R58 and R59: a word `w` is the row's when `w & mask = pattern`. -/
structure Row where
  mask    : Word
  pattern : Word
  build   : Word → Instr

/-- A register-register row: the mask of R54, and the instruction of the fields rd, rs1, rs2. -/
def rowR (pattern : Word) (f : RegIdx → RegIdx → RegIdx → Instr) : Row :=
  ⟨0xFE00707F#32, pattern, fun w => f (rdOf w) (rs1Of w) (rs2Of w)⟩

/-- An I-format row: the mask of R55, immediate by R56. -/
def rowI (pattern : Word) (f : RegIdx → RegIdx → Word → Instr) : Row :=
  ⟨0x0000707F#32, pattern, fun w => f (rdOf w) (rs1Of w) (immOf w)⟩

/-- A shift-immediate row: the mask of R55's shift variant, shift amount by R57. -/
def rowShift (pattern : Word) (f : RegIdx → RegIdx → Word → Instr) : Row :=
  ⟨0xFE00707F#32, pattern, fun w => f (rdOf w) (rs1Of w) (shamtOf w)⟩

/-- R58, the ten rows of the base operations. -/
def rowsBase : List Row :=
  [rowR 0x00000033 .add, rowR 0x40000033 .sub, rowR 0x00001033 .sll, rowR 0x00002033 .slt,
   rowR 0x00003033 .sltu, rowR 0x00004033 .xor, rowR 0x00005033 .srl, rowR 0x40005033 .sra,
   rowR 0x00006033 .or, rowR 0x00007033 .and]

/-- R58, the eight rows of the M operations. -/
def rowsM : List Row :=
  [rowR 0x02000033 .mul, rowR 0x02001033 .mulh, rowR 0x02002033 .mulhsu, rowR 0x02003033 .mulhu,
   rowR 0x02004033 .div, rowR 0x02005033 .divu, rowR 0x02006033 .rem, rowR 0x02007033 .remu]

/-- R59, the nine register-immediate rows. -/
def rowsImm : List Row :=
  [rowI 0x00000013 .addi, rowShift 0x00001013 .slli, rowI 0x00002013 .slti, rowI 0x00003013 .sltiu,
   rowI 0x00004013 .xori, rowShift 0x00005013 .srli, rowShift 0x40005013 .srai, rowI 0x00006013 .ori,
   rowI 0x00007013 .andi]

/-- The 27 rows of the opcode map. -/
def rows : List Row := rowsBase ++ rowsM ++ rowsImm

/-- `w & mask = match` (R60). -/
def Row.fits (r : Row) (w : Word) : Bool := (w &&& r.mask) == r.pattern

/-- The one verdict of the binary decoder on a word that is no instruction of the core (R61). -/
inductive Verdict where
  /-- `NotInCore`: other RV32I instructions, reserved encodings, other extensions, without telling them apart. -/
  | notInCore
  deriving DecidableEq, Repr

/-- The binary decoder, total on every 32-bit value (R60, R61). The instruction is handed over as one 32-bit value,
so no byte order enters (R36, D10). -/
def decodeWord (w : Word) : Except Verdict Instr :=
  match rows.find? (fun r => r.fits w) with
  | some r => .ok (r.build w)
  | none   => .error .notInCore

/-- R54: `funct7 rs2 rs1 funct3 rd 0110011`. -/
def encodeR (funct7 : BitVec 7) (funct3 : BitVec 3) (rd rs1 rs2 : RegIdx) : Word :=
  funct7 ++ rs2 ++ rs1 ++ funct3 ++ rd ++ 0b0110011#7

/-- R55: `imm[11:0] rs1 funct3 rd 0010011`; the 12 bits are the low ones of the word `c` (R56). -/
def encodeI (funct3 : BitVec 3) (rd rs1 : RegIdx) (c : Word) : Word :=
  c.extractLsb' 0 12 ++ rs1 ++ funct3 ++ rd ++ 0b0010011#7

/-- R55, shift variant: `funct7 shamt[4:0] rs1 funct3 rd 0010011`; the 5 bits are the low ones of `c` (R57). -/
def encodeShift (funct7 : BitVec 7) (funct3 : BitVec 3) (rd rs1 : RegIdx) (c : Word) : Word :=
  funct7 ++ c.extractLsb' 0 5 ++ rs1 ++ funct3 ++ rd ++ 0b0010011#7

/-- The instruction word of a well-formed instruction, from the field tables R54, R55 and the columns funct7 and
funct3 of R58 and R59. -/
def encode : Instr → Word
  | .add rd rs1 rs2    => encodeR 0b0000000#7 0b000#3 rd rs1 rs2
  | .sub rd rs1 rs2    => encodeR 0b0100000#7 0b000#3 rd rs1 rs2
  | .sll rd rs1 rs2    => encodeR 0b0000000#7 0b001#3 rd rs1 rs2
  | .slt rd rs1 rs2    => encodeR 0b0000000#7 0b010#3 rd rs1 rs2
  | .sltu rd rs1 rs2   => encodeR 0b0000000#7 0b011#3 rd rs1 rs2
  | .xor rd rs1 rs2    => encodeR 0b0000000#7 0b100#3 rd rs1 rs2
  | .srl rd rs1 rs2    => encodeR 0b0000000#7 0b101#3 rd rs1 rs2
  | .sra rd rs1 rs2    => encodeR 0b0100000#7 0b101#3 rd rs1 rs2
  | .or rd rs1 rs2     => encodeR 0b0000000#7 0b110#3 rd rs1 rs2
  | .and rd rs1 rs2    => encodeR 0b0000000#7 0b111#3 rd rs1 rs2
  | .mul rd rs1 rs2    => encodeR 0b0000001#7 0b000#3 rd rs1 rs2
  | .mulh rd rs1 rs2   => encodeR 0b0000001#7 0b001#3 rd rs1 rs2
  | .mulhsu rd rs1 rs2 => encodeR 0b0000001#7 0b010#3 rd rs1 rs2
  | .mulhu rd rs1 rs2  => encodeR 0b0000001#7 0b011#3 rd rs1 rs2
  | .div rd rs1 rs2    => encodeR 0b0000001#7 0b100#3 rd rs1 rs2
  | .divu rd rs1 rs2   => encodeR 0b0000001#7 0b101#3 rd rs1 rs2
  | .rem rd rs1 rs2    => encodeR 0b0000001#7 0b110#3 rd rs1 rs2
  | .remu rd rs1 rs2   => encodeR 0b0000001#7 0b111#3 rd rs1 rs2
  | .addi rd rs1 c     => encodeI 0b000#3 rd rs1 c
  | .slti rd rs1 c     => encodeI 0b010#3 rd rs1 c
  | .sltiu rd rs1 c    => encodeI 0b011#3 rd rs1 c
  | .xori rd rs1 c     => encodeI 0b100#3 rd rs1 c
  | .ori rd rs1 c      => encodeI 0b110#3 rd rs1 c
  | .andi rd rs1 c     => encodeI 0b111#3 rd rs1 c
  | .slli rd rs1 c     => encodeShift 0b0000000#7 0b001#3 rd rs1 c
  | .srli rd rs1 c     => encodeShift 0b0000000#7 0b101#3 rd rs1 c
  | .srai rd rs1 c     => encodeShift 0b0100000#7 0b101#3 rd rs1 c

/-- The descriptor an instruction stands for (R58, R59, R60). -/
def Instr.descriptor : Instr → Descriptor
  | .add rd rs1 rs2    => ⟨.add, rd, rs1, zext5 rs2, .R⟩
  | .sub rd rs1 rs2    => ⟨.sub, rd, rs1, zext5 rs2, .R⟩
  | .sll rd rs1 rs2    => ⟨.sll, rd, rs1, zext5 rs2, .R⟩
  | .slt rd rs1 rs2    => ⟨.slt, rd, rs1, zext5 rs2, .R⟩
  | .sltu rd rs1 rs2   => ⟨.sltu, rd, rs1, zext5 rs2, .R⟩
  | .xor rd rs1 rs2    => ⟨.xor, rd, rs1, zext5 rs2, .R⟩
  | .srl rd rs1 rs2    => ⟨.srl, rd, rs1, zext5 rs2, .R⟩
  | .sra rd rs1 rs2    => ⟨.sra, rd, rs1, zext5 rs2, .R⟩
  | .or rd rs1 rs2     => ⟨.or, rd, rs1, zext5 rs2, .R⟩
  | .and rd rs1 rs2    => ⟨.and, rd, rs1, zext5 rs2, .R⟩
  | .mul rd rs1 rs2    => ⟨.mul, rd, rs1, zext5 rs2, .R⟩
  | .mulh rd rs1 rs2   => ⟨.mulh, rd, rs1, zext5 rs2, .R⟩
  | .mulhsu rd rs1 rs2 => ⟨.mulhsu, rd, rs1, zext5 rs2, .R⟩
  | .mulhu rd rs1 rs2  => ⟨.mulhu, rd, rs1, zext5 rs2, .R⟩
  | .div rd rs1 rs2    => ⟨.div, rd, rs1, zext5 rs2, .R⟩
  | .divu rd rs1 rs2   => ⟨.divu, rd, rs1, zext5 rs2, .R⟩
  | .rem rd rs1 rs2    => ⟨.rem, rd, rs1, zext5 rs2, .R⟩
  | .remu rd rs1 rs2   => ⟨.remu, rd, rs1, zext5 rs2, .R⟩
  | .addi rd rs1 c     => ⟨.add, rd, rs1, c, .I⟩
  | .slti rd rs1 c     => ⟨.slt, rd, rs1, c, .I⟩
  | .sltiu rd rs1 c    => ⟨.sltu, rd, rs1, c, .I⟩
  | .xori rd rs1 c     => ⟨.xor, rd, rs1, c, .I⟩
  | .ori rd rs1 c      => ⟨.or, rd, rs1, c, .I⟩
  | .andi rd rs1 c     => ⟨.and, rd, rs1, c, .I⟩
  | .slli rd rs1 c     => ⟨.sll, rd, rs1, c, .I⟩
  | .srli rd rs1 c     => ⟨.srl, rd, rs1, c, .I⟩
  | .srai rd rs1 c     => ⟨.sra, rd, rs1, c, .I⟩

/-- The instruction word a table number stands for: bit 0 the least significant, the bits above `nbits` zero. -/
def tableWord (nbits w : Nat) : Word := BitVec.ofNat 32 (w % 2 ^ nbits)

/-- The instruction the decoder reads from the table's number `w` of `nbits` bits. -/
def decodeTableWord (nbits w : Nat) : Option Instr := (decodeWord (tableWord nbits w)).toOption

end Sys2Proof
end

