-- ==== Sys2Proof/Machine/Flags.lean ====
section
/-! DEFINITION. The core has no flags (10_state.md R28): no operation records a carry, a borrow, an overflow or a
division by zero. What other machines hold in flags is here an ordinary word or a test on the operands. -/

namespace Sys2Proof.Machine

/-- The outcome of a comparison: the word 0x00000001 or 0x00000000 (R28, R101, R103). -/
def truthWord (p : Bool) : Word := if p then 0x00000001#32 else 0x00000000#32

/-- The divisor-zero edge case, tested on the bit pattern (R110). -/
def divisorZero (b : Word) : Bool := b == 0x00000000#32

/-- The signed overflow case of DIV and REM, tested on the bit patterns (R110, R112): -2^31 by -1. -/
def signedOverflow (a b : Word) : Bool := a == 0x80000000#32 && b == 0xFFFFFFFF#32

end Sys2Proof.Machine
end

