-- ==== Sys2Proof/Machine/OpTable.lean ====
section
/-! DEFINITION. The Arithmetic Operation Table and its exact semantics (00_scope.md R3; 40_pipeline.md R72): one pure
function of two words for each operation, computed on mathematical integers and narrowed at the end. -/

namespace Sys2Proof.Machine

/-- R85: `w32(u(a) + u(b))`. -/
def addOp (a b : Word) : Word := w32 (uval a + uval b)

/-- R87: `w32(u(a) - u(b))`; the minuend is the first operand. -/
def subOp (a b : Word) : Word := w32 (uval a - uval b)

/-- R88: bitwise and. -/
def andOp (a b : Word) : Word := a &&& b

/-- R90: bitwise inclusive or. -/
def orOp (a b : Word) : Word := a ||| b

/-- R92: bitwise exclusive or. -/
def xorOp (a b : Word) : Word := a ^^^ b

/-- The shift amount actually used, `b mod 32 = b[4:0]` (R94 to R100). -/
def shiftAmount (b : Word) : Nat := b.toNat % 32

/-- R94: `w32(u(a) * 2^sh)`. -/
def sllOp (a b : Word) : Word := w32 (uval a * 2 ^ shiftAmount b)

/-- R96: `floor(u(a) / 2^sh)`; integer `/` with a positive divisor rounds toward minus infinity. -/
def srlOp (a b : Word) : Word := w32 (uval a / 2 ^ shiftAmount b)

/-- R98: `w32(floor(s(a) / 2^sh))`. -/
def sraOp (a b : Word) : Word := w32 (sval a / 2 ^ shiftAmount b)

/-- R101: 1 if `s(a) < s(b)` else 0. -/
def sltOp (a b : Word) : Word := truthWord (decide (sval a < sval b))

/-- R103: 1 if `u(a) < u(b)` else 0. -/
def sltuOp (a b : Word) : Word := truthWord (decide (uval a < uval b))

/-- R105: the low half of the exact product. -/
def mulOp (a b : Word) : Word := w32 (uval a * uval b)

/-- The high half of an exact product, `w32(floor(p / 2^32))` (R106 to R108). -/
def highHalf (p : Int) : Word := w32 (p / 4294967296)

/-- R106: signed by signed. -/
def mulhOp (a b : Word) : Word := highHalf (sval a * sval b)

/-- R107: signed first operand by unsigned second operand. -/
def mulhsuOp (a b : Word) : Word := highHalf (sval a * uval b)

/-- R108: unsigned by unsigned. -/
def mulhuOp (a b : Word) : Word := highHalf (uval a * uval b)

/-- `tdiv(n, d) = sign(n)·sign(d)·floor(|n| / |d|)`: the quotient rounded toward zero (00_scope.md section 4). -/
def tdiv (n d : Int) : Int := n.sign * d.sign * ((n.natAbs / d.natAbs : Nat) : Int)

/-- `trem(n, d) = n - tdiv(n, d)·d` (00_scope.md section 4). -/
def trem (n d : Int) : Int := n - tdiv n d * d

/-- R110: the signed quotient, with its two sentinels. -/
def divOp (a b : Word) : Word :=
  if divisorZero b then 0xFFFFFFFF#32
  else if signedOverflow a b then 0x80000000#32
  else w32 (tdiv (sval a) (sval b))

/-- R111: the unsigned quotient. -/
def divuOp (a b : Word) : Word :=
  if divisorZero b then 0xFFFFFFFF#32 else w32 (uval a / uval b)

/-- R112: the signed remainder; 0 in the overflow case (C4). -/
def remOp (a b : Word) : Word :=
  if divisorZero b then a
  else if signedOverflow a b then 0x00000000#32
  else w32 (trem (sval a) (sval b))

/-- R113: the unsigned remainder. -/
def remuOp (a b : Word) : Word :=
  if divisorZero b then a else w32 (uval a - uval a / uval b * uval b)

/-- `op_fn(op, a, b)` (R72): total, and of its three arguments alone. -/
def opFn (op : Op) (a b : Word) : Word :=
  match op with
  | .add    => addOp a b
  | .sub    => subOp a b
  | .and    => andOp a b
  | .or     => orOp a b
  | .xor    => xorOp a b
  | .sll    => sllOp a b
  | .srl    => srlOp a b
  | .sra    => sraOp a b
  | .slt    => sltOp a b
  | .sltu   => sltuOp a b
  | .mul    => mulOp a b
  | .mulh   => mulhOp a b
  | .mulhu  => mulhuOp a b
  | .mulhsu => mulhsuOp a b
  | .div    => divOp a b
  | .divu   => divuOp a b
  | .rem    => remOp a b
  | .remu   => remuOp a b

end Sys2Proof.Machine
end

