-- ==== Sys2Proof/Config.lean ====
section
/-! DEFINITION. The parameters the spec leaves open (00_scope.md R9; 92_eei_decisions.md D3, D5, D9). -/

namespace Sys2Proof

/-- What a stage called out of order does (D9): no next state either way. -/
inductive StageViolation where
  | refuse
  | fault
  deriving DecidableEq, Repr

/-- The launch parameters that stay fixed for a run. They stand in State, no step changes them, and so a
statement about every state is a statement about every choice of them. -/
structure Params where
  /-- `STAGE_VIOLATION` (R77, D9). -/
  stageViolation    : StageViolation
  /-- `ADMIT_NONSTANDARD_I` (R51, R84, D3). -/
  admitNonstandardI : Bool
  deriving DecidableEq, Repr

/-- `RESET_REGS` (R34, D5): one word for each of x1 .. x31, entry `k` for register `k + 1`. -/
abbrev ResetRegs := Vector Word 31

/-- The defaults the spec names for the two parameters (92_eei_decisions.md, open parameters). -/
def Config.defaultParams : Params := ⟨.refuse, false⟩

/-- DESIGN CHOICE (notes/assumptions/1.md, unsafe): the spec leaves x1 .. x31 open at creation; the one concrete
reset state of this model takes zero for each, the instance R34 names. -/
def Config.resetRegs : ResetRegs := Vector.replicate 31 0#32

end Sys2Proof
end

