-- ==== Sys2Proof/Machine/State.lean ====
section
/-! DEFINITION. The state of the core, the reasons a step may stop, and the state right after creation. -/

namespace Sys2Proof.Machine

/-- The register file: 32 slots of 32 bits, x0 .. x31 (R13, R15). Slot 0 is a stored word that is always 0 (R14);
it is read and written through `readReg` and `writeReg` only. -/
abbrev RegFile := Vector Word 32

/-- The stage of an instruction (R24). The state machine is per instruction (C6): a record exists only in the
stages Decoded and Executed. -/
inductive Stage where
  | fresh | decoded | executed | retired
  deriving DecidableEq, Repr

/-- The decoded instruction record, the pipeline register (R22). -/
structure Record where
  op     : Op
  rd     : RegIdx
  /-- The rs1 value snapshot. -/
  a      : Word
  /-- The rs2 value snapshot or the immediate: one slot (C1). -/
  b      : Word
  /-- Empty until execute has run (R26, U5). -/
  result : Option Word
  stage  : Stage
  deriving DecidableEq, Repr

/-- What the enclosing machine may present to the core (R33, R67): a whole instruction, as a word for the binary
decoder (R60) or as a raw descriptor (R76), or one call of one stage. -/
inductive Input where
  /-- An instruction word: the binary decoder, then all three stages. -/
  | word (w : Word)
  /-- A raw descriptor: all three stages. -/
  | descriptor (d : Descriptor)
  /-- A call of the decode stage (R68). -/
  | decode (d : Descriptor)
  /-- A call of the execute stage (R71). -/
  | execute
  /-- A call of the write_back stage (R73). -/
  | writeBack
  deriving DecidableEq, Repr

/-- The machine. -/
structure State where
  /-- The register file, the only architectural state (R13). -/
  regs     : RegFile
  /-- The record in flight, at most one (R22, R75). -/
  inflight : Option Record
  /-- The launch parameters (R9). No step changes them. -/
  params   : Params
  /-- The optional word write_back returned last (R25): the inner `none` is "absent", the outer one that no
  write_back has run yet. The model's own field (log entry 5). -/
  output   : Option (Option Word)
  /-- What the enclosing machine has presented and the core has not taken, oldest first. The model's own field
  (log entry 3). -/
  pending  : List Input
  deriving DecidableEq, Repr

/-- The stages a caller can call out of order. -/
inductive StageCall where
  | execute
  | writeBack
  deriving DecidableEq, Repr

/-- Why the machine stops with a fault. The hardware itself raises none (R143). -/
inductive Fault where
  /-- Raised by `stageViolation` when the parameter STAGE_VIOLATION is fault (R77, D9): the caller called this stage
  with no record in the stage it needs. Safe: the spec gives no next state. -/
  | stageOrder (call : StageCall)
  deriving DecidableEq, Repr

/-- Why the machine takes no step. -/
inductive Refusal where
  /-- Raised by `exec` for an instruction that has no meaning yet. Safe: no next state. -/
  | notModelled (mnemonic : String)
  /-- Raised by `step` for a word that is no instruction of the core (R61, verdict NotInCore). Safe: the core takes no
  step for it. -/
  | notInCore (w : Word)
  /-- Raised by `admission` for a non-standard register-immediate descriptor while ADMIT_NONSTANDARD_I is false (R84,
  D3). Safe: the spec refuses it at the boundary. -/
  | nonstandardImmediate (op : Op)
  /-- Raised by `admission` for a type R descriptor whose field c is over 31 (R49, U3). Safe: a caller error with no
  behaviour. -/
  | registerIndexOutOfRange (c : Word)
  /-- Raised by `decodeStage` when a record is already in flight (R75, D8, U6). Safe: overlapped instructions are outside
  the spec. -/
  | recordInFlight
  /-- Raised by `stageViolation` when the parameter STAGE_VIOLATION is refuse (R77, D9). Safe: the spec gives no next
  state. -/
  | stageOrder (call : StageCall)
  deriving DecidableEq, Repr

/-- The outcome of a step or of one stage. -/
abbrev Result := Host.Outcome State Fault Refusal

/-- Creation of the register file at machine init (R34, R160): x0 = 0, x1 .. x31 the launch parameter RESET_REGS, no
record in flight (D7), nothing presented and nothing returned yet (log entries 3 and 5). -/
def State.create (r : ResetRegs) (p : Params) : State :=
  { regs := #v[0#32] ++ r, inflight := none, params := p, output := none, pending := [] }

/-- The machine right after reset: creation with the parameter defaults of the spec, and with zero for the registers
the spec leaves open (DESIGN CHOICE, log entry 1). -/
def State.reset : State := State.create Config.resetRegs Config.defaultParams

end Sys2Proof.Machine
end

