-- ==== Sys2Proof/Machine/Operands.lean ====
section
/-! DEFINITION. Register reads and writes, and the two operand forms of a descriptor. -/

namespace Sys2Proof.Machine

/-- `read(i)` (R16): 0 for index 0, else the slot. No failure mode, no side effect. -/
def readReg (f : RegFile) (i : RegIdx) : Word := if i = 0#5 then 0#32 else f[i.toNat]'(i.isLt)

/-- `write(i, v)` (R17): all 32 bits of one slot replaced; a write to slot 0 is dropped. -/
def writeReg (f : RegFile) (i : RegIdx) (v : Word) : RegFile := if i = 0#5 then f else f.set i.toNat v i.isLt

/-- The first operand: the value of rs1 (R68). -/
def operandA (d : Descriptor) (f : RegFile) : Word := readReg f d.rs1

/-- The second operand (R50, R68): with type R the value of register `c[4:0]`; with type I the immediate as it stands
(R52), no register read. -/
def operandB (d : Descriptor) (f : RegFile) : Word :=
  match d.ty with
  | .R => readReg f (d.c.extractLsb' 0 5)
  | .I => d.c

/-- The operations RV32IM gives a register-immediate form (R51). -/
def standardImmediate (op : Op) : Bool :=
  match op with
  | .add | .and | .or | .xor | .sll | .srl | .sra | .slt | .sltu => true
  | .sub | .mul | .mulh | .mulhsu | .mulhu | .div | .divu | .rem | .remu => false

/-- Whether a descriptor may cross the boundary, and if not the reason: R49 and U3 for type R; R51, R84 for type I. -/
def admission (p : Params) (d : Descriptor) : Option Refusal :=
  match d.ty with
  | .R => if d.c.toNat ≤ 31 then none else some (.registerIndexOutOfRange d.c)
  | .I => if standardImmediate d.op || p.admitNonstandardI then none else some (.nonstandardImmediate d.op)

/-- A register-register descriptor (R60). -/
def regReg (op : Op) (rd rs1 rs2 : RegIdx) : Descriptor := ⟨op, rd, rs1, rs2.setWidth 32, .R⟩

/-- A register-immediate descriptor (R52, R60). -/
def regImm (op : Op) (rd rs1 : RegIdx) (c : Word) : Descriptor := ⟨op, rd, rs1, c, .I⟩

/-- Reading a register of the machine. -/
def State.read (s : State) (i : RegIdx) : Word := readReg s.regs i

end Sys2Proof.Machine
end

