-- ==== Sys2Proof/Machine/Ops.lean ====
section
/-! DEFINITION. The three stages of the executor pipeline (40_pipeline.md R68, R71, R73), the one answer to a broken
stage order (R77), and the run of a whole instruction (R69, R76). The core has no exception to take and none to return
from (60_exceptions.md R143, R147, R148). -/

namespace Sys2Proof.Machine

/-- A stage called out of order (R77): never a next state; refused, or a fault where the parameter says so (D9). -/
def stageViolation (call : StageCall) (s : State) : Result :=
  match s.params.stageViolation with
  | .refuse => .refused (.stageOrder call)
  | .fault  => .fault (.stageOrder call)

/-- The record decode builds (R22, R68): the operand values copied, the result slot empty (U5). -/
def snapshot (d : Descriptor) (f : RegFile) : Record :=
  { op := d.op, rd := d.rd, a := operandA d f, b := operandB d f, result := none, stage := .decoded }

/-- The decode stage (R68), behind the boundary (R49, R84); one record in flight (R75). -/
def decodeStage (d : Descriptor) (s : State) : Result :=
  match admission s.params d with
  | some why => .refused why
  | none =>
    match s.inflight with
    | some _ => .refused .recordInFlight
    | none   => .next { s with inflight := some (snapshot d s.regs) }

/-- The record after execute (R71): the result slot and the stage, nothing else. -/
def Record.executed (r : Record) : Record := { r with result := some (opFn r.op r.a r.b), stage := .executed }

/-- The execute stage (R71); only in stage Decoded (R77). -/
def executeStage (s : State) : Result :=
  match s.inflight with
  | some r =>
    if r.stage = .decoded then .next { s with inflight := some r.executed } else stageViolation .execute s
  | none => stageViolation .execute s

/-- What write_back leaves (R73): for rd ≠ 0 the word written and returned; for rd = 0 no write at all and "absent".
The record is discarded. -/
def retire (rd : RegIdx) (v : Word) (s : State) : State :=
  if rd = 0#5 then { s with inflight := none, output := some none }
  else { s with regs := writeReg s.regs rd v, inflight := none, output := some (some v) }

/-- The write_back stage (R73); only in stage Executed (R77). -/
def writeBackStage (s : State) : Result :=
  match s.inflight with
  | some r =>
    if r.stage = .executed then
      match r.result with
      | some v => .next (retire r.rd v s)
      | none   => stageViolation .writeBack s
    else stageViolation .writeBack s
  | none => stageViolation .writeBack s

/-- One stage, then the next one if it answered a next state. -/
def andThen (o : Result) (k : State → Result) : Result :=
  match o with
  | .next s    => k s
  | .fault f   => .fault f
  | .refused r => .refused r

/-- One instruction: decode, execute, write_back, each once and in this order (R69, R82). -/
def runDescriptor (d : Descriptor) (s : State) : Result :=
  andThen (andThen (decodeStage d s) executeStage) writeBackStage

/-- The next input of the enclosing machine, taken from the front of the list (R41). -/
def takeInput (s : State) : Option (Input × State) :=
  match s.pending with
  | []        => none
  | q :: rest => some (q, { s with pending := rest })

end Sys2Proof.Machine
end

