-- ==== Sys2Proof/Machine/AddSubLogic.lean ====
section
/-! DEFINITION. Addition, subtraction and bitwise logic (41_add_sub_logic.md): the meaning of each instruction, its descriptor run through the
three stages (40_pipeline.md R76). -/

namespace Sys2Proof.Machine

/-- ADD (R85): descriptor (ADD, rd, rs1, rs2, R). -/
def execAdd (rd rs1 rs2 : RegIdx) (s : State) : Result := runDescriptor (regReg .add rd rs1 rs2) s

/-- ADDI (R86): descriptor (ADD, rd, rs1, c, I), for every word c (R52). -/
def execAddi (rd rs1 : RegIdx) (c : Word) (s : State) : Result := runDescriptor (regImm .add rd rs1 c) s

/-- SUB (R87): descriptor (SUB, rd, rs1, rs2, R). -/
def execSub (rd rs1 rs2 : RegIdx) (s : State) : Result := runDescriptor (regReg .sub rd rs1 rs2) s

/-- AND (R88): descriptor (AND, rd, rs1, rs2, R). -/
def execAnd (rd rs1 rs2 : RegIdx) (s : State) : Result := runDescriptor (regReg .and rd rs1 rs2) s

/-- ANDI (R89): descriptor (AND, rd, rs1, c, I), for every word c (R52). -/
def execAndi (rd rs1 : RegIdx) (c : Word) (s : State) : Result := runDescriptor (regImm .and rd rs1 c) s

/-- OR (R90): descriptor (OR, rd, rs1, rs2, R). -/
def execOr (rd rs1 rs2 : RegIdx) (s : State) : Result := runDescriptor (regReg .or rd rs1 rs2) s

/-- ORI (R91): descriptor (OR, rd, rs1, c, I), for every word c (R52). -/
def execOri (rd rs1 : RegIdx) (c : Word) (s : State) : Result := runDescriptor (regImm .or rd rs1 c) s

/-- XOR (R92): descriptor (XOR, rd, rs1, rs2, R). -/
def execXor (rd rs1 rs2 : RegIdx) (s : State) : Result := runDescriptor (regReg .xor rd rs1 rs2) s

/-- XORI (R93): descriptor (XOR, rd, rs1, c, I), for every word c (R52). -/
def execXori (rd rs1 : RegIdx) (c : Word) (s : State) : Result := runDescriptor (regImm .xor rd rs1 c) s

end Sys2Proof.Machine
end

