-- ==== Sys2Proof/Machine/Compare.lean ====
section
/-! DEFINITION. Comparisons (43_compare.md): the meaning of each instruction, its descriptor run through the
three stages (40_pipeline.md R76). -/

namespace Sys2Proof.Machine

/-- SLT (R101): descriptor (SLT, rd, rs1, rs2, R). -/
def execSlt (rd rs1 rs2 : RegIdx) (s : State) : Result := runDescriptor (regReg .slt rd rs1 rs2) s

/-- SLTI (R102): descriptor (SLT, rd, rs1, c, I), for every word c (R52). -/
def execSlti (rd rs1 : RegIdx) (c : Word) (s : State) : Result := runDescriptor (regImm .slt rd rs1 c) s

/-- SLTU (R103): descriptor (SLTU, rd, rs1, rs2, R). -/
def execSltu (rd rs1 rs2 : RegIdx) (s : State) : Result := runDescriptor (regReg .sltu rd rs1 rs2) s

/-- SLTIU (R104): descriptor (SLTU, rd, rs1, c, I), for every word c (R52). -/
def execSltiu (rd rs1 : RegIdx) (c : Word) (s : State) : Result := runDescriptor (regImm .sltu rd rs1 c) s

end Sys2Proof.Machine
end

