-- ==== Sys2Proof/Machine/Divide.lean ====
section
/-! DEFINITION. The divider unit (45_divide.md): the meaning of each instruction, its descriptor run through the
three stages (40_pipeline.md R76). -/

namespace Sys2Proof.Machine

/-- DIV (R110): descriptor (DIV, rd, rs1, rs2, R). -/
def execDiv (rd rs1 rs2 : RegIdx) (s : State) : Result := runDescriptor (regReg .div rd rs1 rs2) s

/-- DIVU (R111): descriptor (DIVU, rd, rs1, rs2, R). -/
def execDivu (rd rs1 rs2 : RegIdx) (s : State) : Result := runDescriptor (regReg .divu rd rs1 rs2) s

/-- REM (R112): descriptor (REM, rd, rs1, rs2, R). -/
def execRem (rd rs1 rs2 : RegIdx) (s : State) : Result := runDescriptor (regReg .rem rd rs1 rs2) s

/-- REMU (R113): descriptor (REMU, rd, rs1, rs2, R). -/
def execRemu (rd rs1 rs2 : RegIdx) (s : State) : Result := runDescriptor (regReg .remu rd rs1 rs2) s

end Sys2Proof.Machine
end

