-- ==== Sys2Proof/Machine/Multiply.lean ====
section
/-! DEFINITION. The multiplier unit (44_multiply.md): the meaning of each instruction, its descriptor run through the
three stages (40_pipeline.md R76). -/

namespace Sys2Proof.Machine

/-- MUL (R105): descriptor (MUL, rd, rs1, rs2, R). -/
def execMul (rd rs1 rs2 : RegIdx) (s : State) : Result := runDescriptor (regReg .mul rd rs1 rs2) s

/-- MULH (R106): descriptor (MULH, rd, rs1, rs2, R). -/
def execMulh (rd rs1 rs2 : RegIdx) (s : State) : Result := runDescriptor (regReg .mulh rd rs1 rs2) s

/-- MULHSU (R107): descriptor (MULHSU, rd, rs1, rs2, R). -/
def execMulhsu (rd rs1 rs2 : RegIdx) (s : State) : Result := runDescriptor (regReg .mulhsu rd rs1 rs2) s

/-- MULHU (R108): descriptor (MULHU, rd, rs1, rs2, R). -/
def execMulhu (rd rs1 rs2 : RegIdx) (s : State) : Result := runDescriptor (regReg .mulhu rd rs1 rs2) s

end Sys2Proof.Machine
end

