-- ==== Sys2Proof/Machine/Shift.lean ====
section
/-! DEFINITION. Shifts (42_shift.md): the meaning of each instruction, its descriptor run through the
three stages (40_pipeline.md R76). -/

namespace Sys2Proof.Machine

/-- SLL (R94): descriptor (SLL, rd, rs1, rs2, R). -/
def execSll (rd rs1 rs2 : RegIdx) (s : State) : Result := runDescriptor (regReg .sll rd rs1 rs2) s

/-- SLLI (R95): descriptor (SLL, rd, rs1, c, I), for every word c (R52). -/
def execSlli (rd rs1 : RegIdx) (c : Word) (s : State) : Result := runDescriptor (regImm .sll rd rs1 c) s

/-- SRL (R96): descriptor (SRL, rd, rs1, rs2, R). -/
def execSrl (rd rs1 rs2 : RegIdx) (s : State) : Result := runDescriptor (regReg .srl rd rs1 rs2) s

/-- SRLI (R97): descriptor (SRL, rd, rs1, c, I), for every word c (R52). -/
def execSrli (rd rs1 : RegIdx) (c : Word) (s : State) : Result := runDescriptor (regImm .srl rd rs1 c) s

/-- SRA (R98): descriptor (SRA, rd, rs1, rs2, R). -/
def execSra (rd rs1 rs2 : RegIdx) (s : State) : Result := runDescriptor (regReg .sra rd rs1 rs2) s

/-- SRAI (R99): descriptor (SRA, rd, rs1, c, I), for every word c (R52). -/
def execSrai (rd rs1 : RegIdx) (c : Word) (s : State) : Result := runDescriptor (regImm .sra rd rs1 c) s

end Sys2Proof.Machine
end

