-- ==== Sys2Proof/Machine/Step.lean ====
section
/-! DEFINITION. One step of the core: the next input of the enclosing machine is served; with none, the core is idle. -/

namespace Sys2Proof.Machine

/-- One step. An instruction word goes through the binary decoder and then runs as its instruction (R60), a word that
is no instruction of the core is refused (R61); a raw descriptor runs as a whole (R76); a stage call runs one stage
(R67). With nothing presented the core is idle and holds its register file (R157, R163). -/
def step (s : State) : Host.Outcome State Fault Refusal :=
  match takeInput s with
  | none => .next s
  | some (.word w, t) =>
    match decodeWord w with
    | .ok i    => exec i t
    | .error _ => .refused (.notInCore w)
  | some (.descriptor d, t) => runDescriptor d t
  | some (.decode d, t)     => decodeStage d t
  | some (.execute, t)      => executeStage t
  | some (.writeBack, t)    => writeBackStage t

/-- `s` with the instruction word of the table's number `w` presented as the next input. The core fetches nothing
(R45): the front of the list of pending inputs is where the next instruction is taken from. -/
def State.withFetchWord (s : State) (nbits w : Nat) : State :=
  { s with pending := .word (tableWord nbits w) :: s.pending }

end Sys2Proof.Machine
end

