-- ==== Sys2Proof/Machine/Assembler.lean ====
section
/-! DEFINITION. Assembler forms of the binary layer (30_encoding.md R65, R66), from general knowledge as the spec marks
them: pseudo-instruction expansion and the text of an instruction. The machine sees only the expansion. -/

namespace Sys2Proof.Machine

/-- R66: the one instruction a pseudo-instruction stands for. -/
def expand : Pseudo → Instr
  | .nop        => .addi 0 0 0
  | .mv rd rs   => .addi rd rs 0
  | .li rd imm  => .addi rd 0 (sext12 imm)
  | .not rd rs  => .xori rd rs 0xFFFFFFFF
  | .neg rd rs  => .sub rd 0 rs
  | .seqz rd rs => .sltiu rd rs 1
  | .snez rd rs => .sltu rd 0 rs
  | .sltz rd rs => .slt rd rs 0
  | .sgtz rd rs => .slt rd 0 rs

/-- Registers are written `x0` .. `x31` (R65). -/
def regName (r : RegIdx) : String := "x" ++ toString r.toNat

/-- The ABI aliases of R65, for reading listings only. -/
def abiNames : List String :=
  ["zero", "ra", "sp", "gp", "tp", "t0", "t1", "t2", "s0", "s1"] ++
  ["a0", "a1", "a2", "a3", "a4", "a5", "a6", "a7"] ++
  ["s2", "s3", "s4", "s5", "s6", "s7", "s8", "s9", "s10", "s11"] ++
  ["t3", "t4", "t5", "t6"]

/-- `op rd, rs1, rs2` (R65). -/
def asmR (op : String) (rd rs1 rs2 : RegIdx) : String :=
  op ++ " " ++ regName rd ++ ", " ++ regName rs1 ++ ", " ++ regName rs2

/-- `opi rd, rs1, imm` and `shi rd, rs1, shamt` (R65): the immediate as a signed integer. -/
def asmI (op : String) (rd rs1 : RegIdx) (c : Word) : String :=
  op ++ " " ++ regName rd ++ ", " ++ regName rs1 ++ ", " ++ toString (sval c)

/-- The assembler text of an instruction (R65). -/
def asm : Instr → String
  | .add rd rs1 rs2 => asmR "add" rd rs1 rs2
  | .sub rd rs1 rs2 => asmR "sub" rd rs1 rs2
  | .sll rd rs1 rs2 => asmR "sll" rd rs1 rs2
  | .slt rd rs1 rs2 => asmR "slt" rd rs1 rs2
  | .sltu rd rs1 rs2 => asmR "sltu" rd rs1 rs2
  | .xor rd rs1 rs2 => asmR "xor" rd rs1 rs2
  | .srl rd rs1 rs2 => asmR "srl" rd rs1 rs2
  | .sra rd rs1 rs2 => asmR "sra" rd rs1 rs2
  | .or rd rs1 rs2 => asmR "or" rd rs1 rs2
  | .and rd rs1 rs2 => asmR "and" rd rs1 rs2
  | .mul rd rs1 rs2 => asmR "mul" rd rs1 rs2
  | .mulh rd rs1 rs2 => asmR "mulh" rd rs1 rs2
  | .mulhsu rd rs1 rs2 => asmR "mulhsu" rd rs1 rs2
  | .mulhu rd rs1 rs2 => asmR "mulhu" rd rs1 rs2
  | .div rd rs1 rs2 => asmR "div" rd rs1 rs2
  | .divu rd rs1 rs2 => asmR "divu" rd rs1 rs2
  | .rem rd rs1 rs2 => asmR "rem" rd rs1 rs2
  | .remu rd rs1 rs2 => asmR "remu" rd rs1 rs2
  | .addi rd rs1 c => asmI "addi" rd rs1 c
  | .slti rd rs1 c => asmI "slti" rd rs1 c
  | .sltiu rd rs1 c => asmI "sltiu" rd rs1 c
  | .xori rd rs1 c => asmI "xori" rd rs1 c
  | .ori rd rs1 c => asmI "ori" rd rs1 c
  | .andi rd rs1 c => asmI "andi" rd rs1 c
  | .slli rd rs1 c => asmI "slli" rd rs1 c
  | .srli rd rs1 c => asmI "srli" rd rs1 c
  | .srai rd rs1 c => asmI "srai" rd rs1 c

end Sys2Proof.Machine
end

