-- ==== Sys2Proof/Safety.lean ====
section
/-! DEFINITION. The terms in which claims about the core are made: what an instruction leaves, which descriptors are
admitted, the invariant of the state, and which sequences of inputs keep the caller's contract. -/

namespace Sys2Proof.Machine

/-- What an instruction with destination `rd` and result word `v` leaves of `s` (R73, R74, R76): the word in `rd` and
returned, or for rd = 0 nothing written and "absent" returned; every other register, stored slot 0, the parameters
and the waiting inputs as they were; no record in flight. The core has no flag, special register, memory or program
counter (R27 to R31), so this is all of the state. -/
def Retires (s : State) (rd : RegIdx) (v : Word) (t : State) : Prop :=
  (rd ≠ 0#5 → t.read rd = v ∧ t.output = some (some v)) ∧
  (rd = 0#5 → t.regs = s.regs ∧ t.output = some none) ∧
  (∀ r, r ≠ rd → t.read r = s.read r) ∧
  t.read 0#5 = 0#32 ∧
  t.regs[0] = s.regs[0] ∧
  t.inflight = none ∧
  t.params = s.params ∧
  t.pending = s.pending

/-- The instruction runs to its end: `exec` answers a next state, and that state is the one its effect gives. -/
def Completes (i : Instr) (s : State) (rd : RegIdx) (v : Word) : Prop :=
  ∃ t, exec i s = .next t ∧ Retires s rd v t

/-- The operations a standard register-immediate descriptor may carry, as R51 lists them. -/
def standardImmediateOps : List Op := [.add, .and, .or, .xor, .sll, .srl, .sra, .slt, .sltu]

/-- The descriptors that may be presented: type R with an index 0..31 in c (R49), type I of a standard operation, or of
any operation where ADMIT_NONSTANDARD_I is true (R51, R84). -/
def Admitted (p : Params) (d : Descriptor) : Prop :=
  (d.ty = .R → d.c.toNat ≤ 31) ∧ (d.ty = .I → d.op ∈ standardImmediateOps ∨ p.admitNonstandardI = true)

/-- A record is as the stages make it (R22 to R24): a result exactly when execute has run, and then the word of the
operation on the snapshots. -/
def recordOk (r : Record) : Bool :=
  match r.stage with
  | .decoded  => r.result == none
  | .executed => r.result == some (opFn r.op r.a r.b)
  | .fresh    => false
  | .retired  => false

/-- The invariant of the core: stored slot 0 is 0 (R14) and a record in flight is as the stages make it. -/
def State.inv (s : State) : Bool := s.regs[0] == 0#32 && s.inflight.all recordOk

/-- The stage of the record in flight, none between instructions. -/
def State.stage (s : State) : Option Stage := s.inflight.map Record.stage

/-- The stage after an input the caller's contract allows in the stage `st` (none: no record in flight), and no answer
where it does not allow it (R69, R75, R77, R169): a word must be an instruction of the core, a descriptor admitted, a
stage call the next one in order. -/
def stageAfter (p : Params) (st : Option Stage) (q : Input) : Option (Option Stage) :=
  match q with
  | .word w       => if st.isNone && (decodeWord w).isOk then some none else none
  | .descriptor d => if st.isNone && (admission p d).isNone then some none else none
  | .decode d     => if st.isNone && (admission p d).isNone then some (some .decoded) else none
  | .execute      => if st == some .decoded then some (some .executed) else none
  | .writeBack    => if st == some .executed then some none else none

/-- Whether a sequence of inputs keeps the caller's contract from the stage `st` on. -/
def keepsContract (p : Params) (st : Option Stage) : List Input → Bool
  | [] => true
  | q :: rest =>
    match stageAfter p st q with
    | some st' => keepsContract p st' rest
    | none     => false

/-- The run is over (R163): nothing presented and no record in flight. -/
def State.over (s : State) : Bool := s.pending.isEmpty && s.inflight.isNone

/-- `n` steps, stopping at the first fault or refusal: the run of the host's interface (`run_eq_core`). -/
def run : Nat → State → Result
  | 0, s     => .next s
  | n + 1, s => andThen (step s) (run n)

/-- R76 as a function of the register file alone. -/
def effect (f : RegFile) (d : Descriptor) : RegFile :=
  writeReg f d.rd (opFn d.op (operandA d f) (operandB d f))

end Sys2Proof.Machine
end

