-- ==== Sys2Proof/Certificates/Slice0/Obligations.lean ====
section
/-! DEFINITION. The statements about the model. `Completes i s rd v` (Sys2Proof/Safety.lean) says that `exec i s` answers
a next state and that this state is `s` with `v` in register `rd` and returned (nothing written and "absent" returned
for rd = 0), every other register, the parameters and the waiting inputs unchanged, no record in flight: result, frame
and completion in one. The core has no flag, special register, memory or program counter to speak of (R27 to R31). -/

open Sys2Proof Sys2Proof.Machine

/-- ADD (R85) and ADDI (R86), at every register and every immediate word: the sum modulo 2^32. -/
def Obligations.AddAndAddiSumModulo : Prop :=
  ∀ (s : State) (rd rs1 rs2 : RegIdx) (c : Word), s.inflight = none →
    (Instr.add rd rs1 rs2).descriptor = ⟨.add, rd, rs1, rs2.setWidth 32, .R⟩ ∧
    (Instr.addi rd rs1 c).descriptor = ⟨.add, rd, rs1, c, .I⟩ ∧
    Completes (.add rd rs1 rs2) s rd (BitVec.ofNat 32 (((s.read rs1).toNat + (s.read rs2).toNat) % 2 ^ 32)) ∧
    Completes (.addi rd rs1 c) s rd (BitVec.ofNat 32 (((s.read rs1).toNat + c.toNat) % 2 ^ 32))

/-- SUB (R87): the difference modulo 2^32, rs1 the minuend. -/
def Obligations.SubDifferenceModulo : Prop :=
  ∀ (s : State) (rd rs1 rs2 : RegIdx), s.inflight = none →
    (Instr.sub rd rs1 rs2).descriptor = ⟨.sub, rd, rs1, rs2.setWidth 32, .R⟩ ∧
    Completes (.sub rd rs1 rs2) s rd
      (BitVec.ofNat 32 (((s.read rs1).toNat + (2 ^ 32 - (s.read rs2).toNat)) % 2 ^ 32))

/-- AND (R88) and ANDI (R89): bit by bit. -/
def Obligations.AndAndAndiBitwise : Prop :=
  ∀ (s : State) (rd rs1 rs2 : RegIdx) (c : Word), s.inflight = none →
    (Instr.and rd rs1 rs2).descriptor = ⟨.and, rd, rs1, rs2.setWidth 32, .R⟩ ∧
    (Instr.andi rd rs1 c).descriptor = ⟨.and, rd, rs1, c, .I⟩ ∧
    (∃ v, Completes (.and rd rs1 rs2) s rd v ∧
      ∀ i, i < 32 → v.getLsbD i = ((s.read rs1).getLsbD i && (s.read rs2).getLsbD i)) ∧
    (∃ v, Completes (.andi rd rs1 c) s rd v ∧ ∀ i, i < 32 → v.getLsbD i = ((s.read rs1).getLsbD i && c.getLsbD i))

/-- OR (R90) and ORI (R91): bit by bit. -/
def Obligations.OrAndOriBitwise : Prop :=
  ∀ (s : State) (rd rs1 rs2 : RegIdx) (c : Word), s.inflight = none →
    (Instr.or rd rs1 rs2).descriptor = ⟨.or, rd, rs1, rs2.setWidth 32, .R⟩ ∧
    (Instr.ori rd rs1 c).descriptor = ⟨.or, rd, rs1, c, .I⟩ ∧
    (∃ v, Completes (.or rd rs1 rs2) s rd v ∧
      ∀ i, i < 32 → v.getLsbD i = ((s.read rs1).getLsbD i || (s.read rs2).getLsbD i)) ∧
    (∃ v, Completes (.ori rd rs1 c) s rd v ∧ ∀ i, i < 32 → v.getLsbD i = ((s.read rs1).getLsbD i || c.getLsbD i))

/-- XOR (R92) and XORI (R93): a result bit is 1 exactly when the two operand bits differ. -/
def Obligations.XorAndXoriBitwise : Prop :=
  ∀ (s : State) (rd rs1 rs2 : RegIdx) (c : Word), s.inflight = none →
    (Instr.xor rd rs1 rs2).descriptor = ⟨.xor, rd, rs1, rs2.setWidth 32, .R⟩ ∧
    (Instr.xori rd rs1 c).descriptor = ⟨.xor, rd, rs1, c, .I⟩ ∧
    (∃ v, Completes (.xor rd rs1 rs2) s rd v ∧
      ∀ i, i < 32 → (v.getLsbD i = true ↔ (s.read rs1).getLsbD i ≠ (s.read rs2).getLsbD i)) ∧
    (∃ v, Completes (.xori rd rs1 c) s rd v ∧
      ∀ i, i < 32 → (v.getLsbD i = true ↔ (s.read rs1).getLsbD i ≠ c.getLsbD i))

/-- SLL (R94) and SLLI (R95): the product with 2^sh modulo 2^32, and the bitwise form, for the shift amount `b mod 32`. -/
def Obligations.SllAndSlliShiftLeft : Prop :=
  ∀ (s : State) (rd rs1 rs2 : RegIdx) (c : Word), s.inflight = none →
    (Instr.sll rd rs1 rs2).descriptor = ⟨.sll, rd, rs1, rs2.setWidth 32, .R⟩ ∧
    (Instr.slli rd rs1 c).descriptor = ⟨.sll, rd, rs1, c, .I⟩ ∧
    (∃ v, Completes (.sll rd rs1 rs2) s rd v ∧
      v.toNat = (s.read rs1).toNat * 2 ^ ((s.read rs2).toNat % 32) % 2 ^ 32 ∧
      ∀ i, i < 32 → v.getLsbD i =
        if (s.read rs2).toNat % 32 ≤ i then (s.read rs1).getLsbD (i - (s.read rs2).toNat % 32) else false) ∧
    (∃ v, Completes (.slli rd rs1 c) s rd v ∧
      v.toNat = (s.read rs1).toNat * 2 ^ (c.toNat % 32) % 2 ^ 32 ∧
      ∀ i, i < 32 → v.getLsbD i = if c.toNat % 32 ≤ i then (s.read rs1).getLsbD (i - c.toNat % 32) else false)

/-- SRL (R96) and SRLI (R97): the floor of the quotient by 2^sh, and the bitwise form with zeros entering at the top. -/
def Obligations.SrlAndSrliShiftRightLogical : Prop :=
  ∀ (s : State) (rd rs1 rs2 : RegIdx) (c : Word), s.inflight = none →
    (Instr.srl rd rs1 rs2).descriptor = ⟨.srl, rd, rs1, rs2.setWidth 32, .R⟩ ∧
    (Instr.srli rd rs1 c).descriptor = ⟨.srl, rd, rs1, c, .I⟩ ∧
    (∃ v, Completes (.srl rd rs1 rs2) s rd v ∧
      v.toNat = (s.read rs1).toNat / 2 ^ ((s.read rs2).toNat % 32) ∧
      ∀ i, i < 32 → v.getLsbD i = if i + (s.read rs2).toNat % 32 ≤ 31
        then (s.read rs1).getLsbD (i + (s.read rs2).toNat % 32) else false) ∧
    (∃ v, Completes (.srli rd rs1 c) s rd v ∧
      v.toNat = (s.read rs1).toNat / 2 ^ (c.toNat % 32) ∧
      ∀ i, i < 32 → v.getLsbD i = if i + c.toNat % 32 ≤ 31 then (s.read rs1).getLsbD (i + c.toNat % 32) else false)

/-- SRA (R98) and SRAI (R99): the quotient by 2^sh of the signed reading, rounded toward minus infinity (integer `/`
with a positive divisor), and the bitwise form with the sign bit entering at the top. -/
def Obligations.SraAndSraiShiftRightArithmetic : Prop :=
  ∀ (s : State) (rd rs1 rs2 : RegIdx) (c : Word), s.inflight = none →
    (Instr.sra rd rs1 rs2).descriptor = ⟨.sra, rd, rs1, rs2.setWidth 32, .R⟩ ∧
    (Instr.srai rd rs1 c).descriptor = ⟨.sra, rd, rs1, c, .I⟩ ∧
    (∃ v, Completes (.sra rd rs1 rs2) s rd v ∧
      v.toInt = (s.read rs1).toInt / 2 ^ ((s.read rs2).toNat % 32) ∧
      ∀ i, i < 32 → v.getLsbD i = if i + (s.read rs2).toNat % 32 ≤ 31
        then (s.read rs1).getLsbD (i + (s.read rs2).toNat % 32) else (s.read rs1).getLsbD 31) ∧
    (∃ v, Completes (.srai rd rs1 c) s rd v ∧
      v.toInt = (s.read rs1).toInt / 2 ^ (c.toNat % 32) ∧
      ∀ i, i < 32 → v.getLsbD i = if i + c.toNat % 32 ≤ 31
        then (s.read rs1).getLsbD (i + c.toNat % 32) else (s.read rs1).getLsbD 31)

/-- SLT (R101) and SLTI (R102): 1 exactly when less as two's-complement integers. -/
def Obligations.SltAndSltiSignedLess : Prop :=
  ∀ (s : State) (rd rs1 rs2 : RegIdx) (c : Word), s.inflight = none →
    (Instr.slt rd rs1 rs2).descriptor = ⟨.slt, rd, rs1, rs2.setWidth 32, .R⟩ ∧
    (Instr.slti rd rs1 c).descriptor = ⟨.slt, rd, rs1, c, .I⟩ ∧
    Completes (.slt rd rs1 rs2) s rd (if (s.read rs1).toInt < (s.read rs2).toInt then 1#32 else 0#32) ∧
    Completes (.slti rd rs1 c) s rd (if (s.read rs1).toInt < c.toInt then 1#32 else 0#32)

/-- SLTU (R103) and SLTIU (R104): 1 exactly when less as unsigned integers. -/
def Obligations.SltuAndSltiuUnsignedLess : Prop :=
  ∀ (s : State) (rd rs1 rs2 : RegIdx) (c : Word), s.inflight = none →
    (Instr.sltu rd rs1 rs2).descriptor = ⟨.sltu, rd, rs1, rs2.setWidth 32, .R⟩ ∧
    (Instr.sltiu rd rs1 c).descriptor = ⟨.sltu, rd, rs1, c, .I⟩ ∧
    Completes (.sltu rd rs1 rs2) s rd (if (s.read rs1).toNat < (s.read rs2).toNat then 1#32 else 0#32) ∧
    Completes (.sltiu rd rs1 c) s rd (if (s.read rs1).toNat < c.toNat then 1#32 else 0#32)

/-- MUL (R105): the low 32 bits of the product, whichever way the operands are read. -/
def Obligations.MulLowHalfOfProduct : Prop :=
  ∀ (s : State) (rd rs1 rs2 : RegIdx), s.inflight = none →
    (Instr.mul rd rs1 rs2).descriptor = ⟨.mul, rd, rs1, rs2.setWidth 32, .R⟩ ∧
    ∃ v, Completes (.mul rd rs1 rs2) s rd v ∧
      v.toNat = (s.read rs1).toNat * (s.read rs2).toNat % 2 ^ 32 ∧
      v = BitVec.ofInt 32 ((s.read rs1).toInt * (s.read rs2).toInt) ∧
      v = BitVec.ofInt 32 ((s.read rs1).toInt * (s.read rs2).toNat)

/-- MULH (R106): bits 63:32 of the 64-bit two's-complement form of the signed by signed product, which is exact. -/
def Obligations.MulhHighHalfSigned : Prop :=
  ∀ (s : State) (rd rs1 rs2 : RegIdx), s.inflight = none →
    (Instr.mulh rd rs1 rs2).descriptor = ⟨.mulh, rd, rs1, rs2.setWidth 32, .R⟩ ∧
    ∃ p : BitVec 64, p.toInt = (s.read rs1).toInt * (s.read rs2).toInt ∧
      Completes (.mulh rd rs1 rs2) s rd (p.extractLsb' 32 32)

/-- MULHSU (R107): the same of signed rs1 by unsigned rs2. -/
def Obligations.MulhsuHighHalfSignedUnsigned : Prop :=
  ∀ (s : State) (rd rs1 rs2 : RegIdx), s.inflight = none →
    (Instr.mulhsu rd rs1 rs2).descriptor = ⟨.mulhsu, rd, rs1, rs2.setWidth 32, .R⟩ ∧
    ∃ p : BitVec 64, p.toInt = (s.read rs1).toInt * (s.read rs2).toNat ∧
      Completes (.mulhsu rd rs1 rs2) s rd (p.extractLsb' 32 32)

/-- MULHU (R108): the same of unsigned by unsigned. -/
def Obligations.MulhuHighHalfUnsigned : Prop :=
  ∀ (s : State) (rd rs1 rs2 : RegIdx), s.inflight = none →
    (Instr.mulhu rd rs1 rs2).descriptor = ⟨.mulhu, rd, rs1, rs2.setWidth 32, .R⟩ ∧
    ∃ p : BitVec 64, p.toNat = (s.read rs1).toNat * (s.read rs2).toNat ∧
      Completes (.mulhu rd rs1 rs2) s rd (p.extractLsb' 32 32)

/-- DIV (R110): the two sentinels, else the quotient rounded toward zero (`Int.tdiv`). -/
def Obligations.DivSignedQuotient : Prop :=
  ∀ (s : State) (rd rs1 rs2 : RegIdx), s.inflight = none →
    (Instr.div rd rs1 rs2).descriptor = ⟨.div, rd, rs1, rs2.setWidth 32, .R⟩ ∧
    Completes (.div rd rs1 rs2) s rd
      (if s.read rs2 = 0x00000000#32 then 0xFFFFFFFF#32
       else if s.read rs1 = 0x80000000#32 ∧ s.read rs2 = 0xFFFFFFFF#32 then 0x80000000#32
       else BitVec.ofInt 32 ((s.read rs1).toInt.tdiv (s.read rs2).toInt))

/-- DIVU (R111): all ones for a zero divisor, else the floor of the unsigned quotient. -/
def Obligations.DivuUnsignedQuotient : Prop :=
  ∀ (s : State) (rd rs1 rs2 : RegIdx), s.inflight = none →
    (Instr.divu rd rs1 rs2).descriptor = ⟨.divu, rd, rs1, rs2.setWidth 32, .R⟩ ∧
    Completes (.divu rd rs1 rs2) s rd
      (if s.read rs2 = 0x00000000#32 then 0xFFFFFFFF#32
       else BitVec.ofNat 32 ((s.read rs1).toNat / (s.read rs2).toNat))

/-- REM (R112): the dividend for a zero divisor, 0 in the overflow case, else the remainder of the division rounded
toward zero. -/
def Obligations.RemSignedRemainder : Prop :=
  ∀ (s : State) (rd rs1 rs2 : RegIdx), s.inflight = none →
    (Instr.rem rd rs1 rs2).descriptor = ⟨.rem, rd, rs1, rs2.setWidth 32, .R⟩ ∧
    Completes (.rem rd rs1 rs2) s rd
      (if s.read rs2 = 0x00000000#32 then s.read rs1
       else if s.read rs1 = 0x80000000#32 ∧ s.read rs2 = 0xFFFFFFFF#32 then 0x00000000#32
       else BitVec.ofInt 32 ((s.read rs1).toInt -
         (s.read rs1).toInt.tdiv (s.read rs2).toInt * (s.read rs2).toInt))

/-- REMU (R113): the dividend for a zero divisor, else the unsigned remainder. -/
def Obligations.RemuUnsignedRemainder : Prop :=
  ∀ (s : State) (rd rs1 rs2 : RegIdx), s.inflight = none →
    (Instr.remu rd rs1 rs2).descriptor = ⟨.remu, rd, rs1, rs2.setWidth 32, .R⟩ ∧
    Completes (.remu rd rs1 rs2) s rd
      (if s.read rs2 = 0x00000000#32 then s.read rs1
       else BitVec.ofNat 32 ((s.read rs1).toNat -
         (s.read rs1).toNat / (s.read rs2).toNat * (s.read rs2).toNat))

/-- The shift masking law (R100): the three shifts depend on b only through b mod 32, and so do the immediate forms. -/
def Obligations.ShiftDependsOnLowFiveBits : Prop :=
  ∀ (op : Op) (a b b' : Word), op = .sll ∨ op = .srl ∨ op = .sra → b.extractLsb' 0 5 = b'.extractLsb' 0 5 →
    opFn op a b = opFn op a b' ∧
    ∀ (s : State) (rd rs1 : RegIdx), exec (.slli rd rs1 b) s = exec (.slli rd rs1 b') s ∧
      exec (.srli rd rs1 b) s = exec (.srli rd rs1 b') s ∧ exec (.srai rd rs1 b) s = exec (.srai rd rs1 b') s

/-- The division laws (R115), as statements about result words. The last clause, the identity modulo 2^32 with no
exception, is the spec's own inference, marked derived in R115. -/
def Obligations.DivisionLaws : Prop :=
  ∀ a b : Word,
    (b ≠ 0#32 → ¬(a = 0x80000000#32 ∧ b = 0xFFFFFFFF#32) →
      (opFn .div a b).toInt * b.toInt + (opFn .rem a b).toInt = a.toInt ∧
      (opFn .rem a b).toInt.natAbs < b.toInt.natAbs ∧
      ((opFn .rem a b).toInt = 0 ∨ (opFn .rem a b).toInt.sign = a.toInt.sign)) ∧
    (b ≠ 0#32 →
      (opFn .divu a b).toNat * b.toNat + (opFn .remu a b).toNat = a.toNat ∧ (opFn .remu a b).toNat < b.toNat) ∧
    opFn .div a b * b + opFn .rem a b = a ∧ opFn .divu a b * b + opFn .remu a b = a

/-- The relations among the multiplies that R109 and the corner cases of R106 to R108 state; all marked derived. -/
def Obligations.MultiplierRelations : Prop :=
  ∀ a b : Word,
    opFn .mulh a b = opFn .mulhu a b - (if a.getLsbD 31 then b else 0#32) - (if b.getLsbD 31 then a else 0#32) ∧
    opFn .mulhsu a b = opFn .mulhu a b - (if a.getLsbD 31 then b else 0#32) ∧
    opFn .mul a b = opFn .mul b a ∧ opFn .mulh a b = opFn .mulh b a ∧ opFn .mulhu a b = opFn .mulhu b a ∧
    (opFn .mulhu a b ++ opFn .mul a b).toNat = a.toNat * b.toNat ∧
    (opFn .mulh a b ++ opFn .mul a b).toInt = a.toInt * b.toInt ∧
    (opFn .mulhsu a b ++ opFn .mul a b).toInt = a.toInt * b.toNat ∧
    ∃ x y : Word, opFn .mulhsu x y ≠ opFn .mulhsu y x

/-- R76, which the spec derives: a raw descriptor that may be presented runs to its end, with the operation's word on the
operands read before the instruction's own write. It covers the 36 combinations of operation and type. -/
def Obligations.DescriptorEffectAsAWhole : Prop :=
  ∀ (s : State) (d : Descriptor) (rest : List Input), s.pending = .descriptor d :: rest → s.inflight = none →
    Admitted s.params d →
    ∃ t, step s = .next t ∧ Retires { s with pending := rest } d.rd
      (opFn d.op (s.read d.rs1) (match d.ty with | .R => s.read (d.c.extractLsb' 0 5) | .I => d.c)) t

/-- R84 with decision D3: a non-standard register-immediate descriptor runs when ADMIT_NONSTANDARD_I is true, with the
immediate as second operand, and is refused at the boundary when it is false. -/
def Obligations.NonstandardImmediateByParameter : Prop :=
  ∀ (s : State) (op : Op) (rd rs1 : RegIdx) (c : Word) (rest : List Input),
    op ∈ [Op.sub, .mul, .mulh, .mulhsu, .mulhu, .div, .divu, .rem, .remu] →
    s.pending = .descriptor ⟨op, rd, rs1, c, .I⟩ :: rest →
    (s.params.admitNonstandardI = true → s.inflight = none →
      ∃ t, step s = .next t ∧ Retires { s with pending := rest } rd (opFn op (s.read rs1) c) t) ∧
    (s.params.admitNonstandardI = false → step s = .refused (.nonstandardImmediate op))

/-- R49 (U3) and R84 with decisions D2 and D3: what may not be presented is refused at the boundary under its own name,
for a whole instruction and for a decode call alike, whatever is in flight. -/
def Obligations.BoundaryRefusesByName : Prop :=
  ∀ (s : State) (d : Descriptor) (rest : List Input),
    s.pending = .descriptor d :: rest ∨ s.pending = .decode d :: rest →
    (d.ty = .R → 31 < d.c.toNat → step s = .refused (.registerIndexOutOfRange d.c)) ∧
    (d.ty = .I → d.op ∉ standardImmediateOps → s.params.admitNonstandardI = false →
      step s = .refused (.nonstandardImmediate d.op))

/-- The zero-register sink (R78): for every operation and both types. -/
def Obligations.ZeroRegisterSink : Prop :=
  ∀ (s : State) (d : Descriptor) (rest : List Input), s.pending = .descriptor d :: rest → s.inflight = none →
    Admitted s.params d → d.rd = 0#5 →
    ∃ t, step s = .next t ∧ t.read 0#5 = 0#32 ∧ t.output = some none ∧ t.regs = s.regs

/-- Slot 0 is hardwired to zero (R14): it reads 0 in every state, swallows writes, is 0 at creation, and stays 0 at every
step, the stage calls included. -/
def Obligations.SlotZeroStaysZero : Prop :=
  (∀ s : State, s.read 0#5 = 0#32) ∧
  (∀ (f : RegFile) (v : Word), writeReg f 0#5 v = f) ∧
  (∀ (r : ResetRegs) (p : Params), (State.create r p).regs[0] = 0#32) ∧
  (∀ s t : State, s.regs[0] = 0#32 → step s = .next t → t.regs[0] = 0#32)

/-- Register read (R16) and register write (R17). -/
def Obligations.RegisterReadAndWrite : Prop :=
  ∀ (f : RegFile) (i : RegIdx) (v : Word),
    readReg f 0#5 = 0#32 ∧
    (∀ j : RegIdx, j ≠ 0#5 → readReg f j = f[j.toNat]'(j.isLt)) ∧
    writeReg f 0#5 v = f ∧
    (i ≠ 0#5 → readReg (writeReg f i v) i = v) ∧
    (∀ j : RegIdx, j ≠ i → readReg (writeReg f i v) j = readReg f j)

/-- The decode stage (R68): the record with the index of rd and the two operand values; the register file is not
changed. -/
def Obligations.DecodeStageSnapshotsOperands : Prop :=
  ∀ (s : State) (d : Descriptor) (rest : List Input), s.pending = .decode d :: rest → s.inflight = none →
    Admitted s.params d →
    ∃ r : Record, step s = .next { s with pending := rest, inflight := some r } ∧
      r.op = d.op ∧ r.rd = d.rd ∧ r.a = s.read d.rs1 ∧
      (d.ty = .R → r.b = s.read (d.c.extractLsb' 0 5)) ∧ (d.ty = .I → r.b = d.c) ∧ r.stage = .decoded

/-- The execute stage (R71): the result slot and the stage of the record, and nothing else. -/
def Obligations.ExecuteStageFillsResult : Prop :=
  ∀ (s : State) (r : Record) (rest : List Input), s.pending = .execute :: rest → s.inflight = some r →
    r.stage = .decoded →
    step s = .next { s with pending := rest,
                            inflight := some { r with result := some (opFn r.op r.a r.b), stage := .executed } }

/-- The write_back stage (R73): the word published and returned, or for rd = 0 nothing written and "absent" returned; the
record discarded. -/
def Obligations.WriteBackStagePublishes : Prop :=
  ∀ (s : State) (r : Record) (v : Word) (rest : List Input), s.pending = .writeBack :: rest →
    s.inflight = some r → r.stage = .executed → r.result = some v →
    ∃ t, step s = .next t ∧ Retires { s with pending := rest } r.rd v t

/-- The write_back contract (R74, whose second sentence the spec derives), of every write_back call that goes on. -/
def Obligations.WriteBackContract : Prop :=
  ∀ (s t : State) (rest : List Input), s.pending = .writeBack :: rest → step s = .next t →
    ∃ r : Record, s.inflight = some r ∧
      ((r.rd ≠ 0#5 ∧ t.output = some (some (t.read r.rd))) ∨
        (r.rd = 0#5 ∧ t.output = some none ∧ t.regs = s.regs)) ∧
      ∀ i, i ≠ r.rd → t.read i = s.read i

/-- Snapshot isolation (R80): whatever the register file holds between decode and execute, and between execute and
write_back, the word computed, written and returned is that of the operands read at decode. -/
def Obligations.SnapshotIsolation : Prop :=
  ∀ (s : State) (d : Descriptor) (rest : List Input) (f g : RegFile),
    s.pending = .decode d :: .execute :: .writeBack :: rest → s.inflight = none → Admitted s.params d →
    ∃ t1 t2 t3, step s = .next t1 ∧ step { t1 with regs := f } = .next t2 ∧ step { t2 with regs := g } = .next t3 ∧
      t2.inflight.map Record.result = some (some (opFn d.op (operandA d s.regs) (operandB d s.regs))) ∧
      Retires { s with pending := rest, regs := g } d.rd (opFn d.op (operandA d s.regs) (operandB d s.regs)) t3

/-- Determinism and purity (R79): two records built from the same inputs yield the same result, whatever else the two
machines hold. -/
def Obligations.ExecuteIsPure : Prop :=
  ∀ (s s' : State) (r r' : Record) (rest rest' : List Input),
    s.pending = .execute :: rest → s'.pending = .execute :: rest' → s.inflight = some r → s'.inflight = some r' →
    r.stage = .decoded → r'.stage = .decoded → r.op = r'.op → r.a = r'.a → r.b = r'.b →
    ∃ t t' v, step s = .next t ∧ step s' = .next t' ∧
      t.inflight.map Record.result = some (some v) ∧ t'.inflight.map Record.result = some (some v)

/-- What an instruction returns and writes depends on its operand values alone (R72): two machines that agree on the two
operands agree on the word, whatever else they hold. -/
def Obligations.ResultDependsOnOperandsAlone : Prop :=
  ∀ (i : Instr) (s s' : State), s.inflight = none → s'.inflight = none →
    operandA i.descriptor s.regs = operandA i.descriptor s'.regs →
    operandB i.descriptor s.regs = operandB i.descriptor s'.regs →
    ∃ t t', exec i s = .next t ∧ exec i s' = .next t' ∧ t.output = t'.output ∧
      t.read i.descriptor.rd = t'.read i.descriptor.rd

/-- R77 with decision D9: a stage called in any other stage has no next state; it is refused, or a fault where the
parameter STAGE_VIOLATION says fault. -/
def Obligations.StageOrderViolationStops : Prop :=
  ∀ (s : State) (rest : List Input),
    (s.pending = .execute :: rest → s.stage ≠ some .decoded →
      step s = if s.params.stageViolation = .refuse then .refused (.stageOrder .execute)
        else .fault (.stageOrder .execute)) ∧
    (s.pending = .writeBack :: rest → s.stage ≠ some .executed →
      step s = if s.params.stageViolation = .refuse then .refused (.stageOrder .writeBack)
        else .fault (.stageOrder .writeBack))

/-- R75 with decision D8: while a record is in flight no second instruction is decoded, neither by a decode call nor as
a whole, nor as one of the 27 instructions. -/
def Obligations.OneRecordInFlight : Prop :=
  ∀ (s : State) (r : Record), s.inflight = some r →
    (∀ (d : Descriptor) (rest : List Input), Admitted s.params d →
      s.pending = .decode d :: rest ∨ s.pending = .descriptor d :: rest → step s = .refused .recordInFlight) ∧
    ∀ i : Instr, exec i s = .refused .recordInFlight

/-- The stage sequence (R69): Fresh to Decoded to Executed to Retired, with no transition back, none that skips a state,
no cancel and no flush. A step with an input waiting moves a Decoded record to Executed or not at all, and an Executed one
to its retirement; with none waiting nothing moves. -/
def Obligations.StagesMoveForwardOnly : Prop :=
  ∀ s t : State, step s = .next t →
    (s.pending = [] → t.inflight = s.inflight) ∧
    (s.inflight = none → t.inflight = none ∨ t.stage = some .decoded) ∧
    (∀ r, s.inflight = some r → s.pending ≠ [] →
      (r.stage = .decoded ∧ t.stage = some .executed ∧
        t.inflight.map (fun q => (q.op, q.rd, q.a, q.b)) = some (r.op, r.rd, r.a, r.b)) ∨
      (r.stage = .executed ∧ t.inflight = none))

/-- Visibility of a result (R42): decode and execute leave every slot of the register file unchanged; a write_back call
changes one slot at most, that of its record's rd, to the record's result. -/
def Obligations.EffectVisibleOnlyAtWriteBack : Prop :=
  ∀ s t : State, step s = .next t →
    (∀ (d : Descriptor) (rest : List Input), s.pending = .decode d :: rest → t.regs = s.regs) ∧
    (∀ rest : List Input, s.pending = .execute :: rest → t.regs = s.regs) ∧
    (∀ (rest : List Input) (r : Record) (v : Word), s.pending = .writeBack :: rest → s.inflight = some r →
      r.result = some v → t.regs = if r.rd = 0#5 then s.regs else s.regs.set r.rd.toNat v r.rd.isLt)

/-- R76 with decision D17: three stage calls, one step each, are one instruction. The two agree on every state, those
where they stop included. -/
def Obligations.ThreeStagesAreOneInstruction : Prop :=
  ∀ (s t : State) (d : Descriptor) (rest : List Input), s.pending = .decode d :: .execute :: .writeBack :: rest →
    t = { s with pending := .descriptor d :: rest } → run 3 s = step t

/-- R41, clause (c) with (a) and (b): a sequence of descriptors leaves the register file that their individual effects
leave, applied one after another in the order presented. -/
def Obligations.SequenceAppliesEffectsInOrder : Prop :=
  ∀ (s : State) (ds : List Descriptor), s.inflight = none → (∀ d ∈ ds, Admitted s.params d) →
    s.pending = ds.map Input.descriptor →
    ∃ t, run ds.length s = .next t ∧ t.regs = ds.foldl effect s.regs ∧
      t.inflight = none ∧ t.pending = [] ∧ t.params = s.params

/-- No hazard (R164): the result of an instruction is in the register file before the next one reads its operands, for
every pair of instructions. -/
def Obligations.NextInstructionReadsTheResult : Prop :=
  ∀ (s : State) (i j : Instr), s.inflight = none →
    ∃ t v u w, exec i s = .next t ∧ Retires s i.descriptor.rd v t ∧ exec j t = .next u ∧
      Retires t j.descriptor.rd w u ∧
      w = opFn j.descriptor.op
        (if j.descriptor.rs1 = i.descriptor.rd ∧ i.descriptor.rd ≠ 0#5 then v else s.read j.descriptor.rs1)
        (match j.descriptor.ty with
          | .R => if j.descriptor.c.extractLsb' 0 5 = i.descriptor.rd ∧ i.descriptor.rd ≠ 0#5 then v
                  else s.read (j.descriptor.c.extractLsb' 0 5)
          | .I => j.descriptor.c)

/-- A run that keeps the caller's contract never stops and takes every input (R10, R69, R143, R169): from any state that
meets the invariant, any number of steps answers a next state that meets it, and after as many steps as inputs none is
left waiting. The steps beyond the last input are idle steps, which hold the state (R157, R163; log entry 12). -/
def Obligations.ContractKeepingRunNeverStops : Prop :=
  ∀ s : State, s.inv = true → keepsContract s.params s.stage s.pending = true →
    (∀ n, ∃ t, run n s = .next t ∧ t.inv = true) ∧
    ∃ t, run s.pending.length s = .next t ∧ t.pending = []

/-- The set of synchronous exceptions is empty (R143): no instruction faults in any state; and a step faults only at an
execute or write_back call and where STAGE_VIOLATION is fault. The second clause rests on R77 with decision D9 and on log
entries 7 and 19; it says nothing of the stage, of which `Obligations.StageOrderViolationStops` speaks. -/
def Obligations.NoInstructionFaults : Prop :=
  (∀ (i : Instr) (s : State) (f : Fault), exec i s ≠ .fault f) ∧
  ∀ (s : State) (f : Fault), step s = .fault f →
    s.params.stageViolation = .fault ∧ (s.pending.head? = some .execute ∨ s.pending.head? = some .writeBack)

/-- Every step keeps the invariant: stored slot 0 is 0, and a record in flight is in stage Decoded with an empty result
slot, or in stage Executed with the word of its operation on its snapshots (R14, R22 to R24). -/
def Obligations.StepKeepsInvariant : Prop :=
  ∀ s t : State, s.inv = true → step s = .next t → t.inv = true

/-- Creation meets the invariant, for every RESET_REGS and every choice of the parameters. -/
def Obligations.CreationMeetsInvariant : Prop :=
  (∀ (r : ResetRegs) (p : Params), (State.create r p).inv = true) ∧ State.reset.inv = true

/-- The state after creation (R34, R160 with decisions D5 and D7): x0 reads 0, x1 to x31 read RESET_REGS, no record is in
flight. That `State.reset` takes zeros for RESET_REGS is the model's choice (log entry 1), as are the empty list of inputs
and the empty output (log entries 3 and 5). -/
def Obligations.CreatedRegisterFile : Prop :=
  (∀ (r : ResetRegs) (p : Params), (State.create r p).read 0#5 = 0#32 ∧
    (∀ k : Fin 31, (State.create r p).read (BitVec.ofNat 5 (k.val + 1)) = r[k]) ∧
    (State.create r p).inflight = none) ∧
  ∃ r, State.reset = State.create r ⟨.refuse, false⟩

/-- Inputs are taken one a step in the order presented, and the launch parameters never change (R9, R41). -/
def Obligations.InputsInOrderAndParametersFixed : Prop :=
  ∀ s t : State, step s = .next t → t.pending = s.pending.tail ∧ t.params = s.params

/-- With nothing presented the core is idle and holds its register file (R157, R163). -/
def Obligations.IdleCoreHoldsItsState : Prop :=
  ∀ s : State, s.pending = [] → step s = .next s

/-- A step runs the decoded instruction: a word presented next that decodes to `i` is taken and `exec i` runs; and
`withFetchWord` presents exactly that word. The binary layer is the spec's decision D1 (log entry 2). -/
def Obligations.StepRunsDecodedInstruction : Prop :=
  (∀ (s : State) (w : Word) (rest : List Input) (i : Instr), s.pending = .word w :: rest → decodeWord w = .ok i →
    step s = exec i { s with pending := rest }) ∧
  (∀ (s : State) (w : Word) (i : Instr), decodeWord w = .ok i → step (s.withFetchWord 32 w.toNat) = exec i s) ∧
  ∀ (s : State) (i : Instr) (rest : List Input), s.pending = .descriptor i.descriptor :: rest →
    step s = exec i { s with pending := rest }

/-- A word that is no instruction of the core is refused under the decoder's verdict, and the core takes no step for it
(R61 with decision D13). -/
def Obligations.WordNotInCoreRefused : Prop :=
  ∀ (s : State) (w : Word) (rest : List Input), s.pending = .word w :: rest → (∀ i, decodeWord w ≠ .ok i) →
    decodeWord w = .error .notInCore ∧ step s = .refused (.notInCore w)

/-- Decoding an encoded well-formed instruction gives it back, with every operand at every value its encoding admits. The
encodings are the spec's decision D1 (log entry 2). -/
def Obligations.DecodeOfEncode : Prop :=
  ∀ i : Instr, i.wf = true → decodeWord (encode i) = .ok i

/-- What the decoder reads is well formed, and encoding it gives the word back: no bit of an accepted word is dropped
(decision D1, log entry 2). -/
def Obligations.EncodeOfDecode : Prop :=
  ∀ (w : Word) (i : Instr), decodeWord w = .ok i → i.wf = true ∧ encode i = w

/-- No word fits two rows of the opcode maps (R60, which the spec derives). -/
def Obligations.OpcodeRowsExclusive : Prop :=
  rows.length = 27 ∧
  ∀ (w : Word) (m n : Fin rows.length), rows[m].fits w = true → rows[n].fits w = true → m = n

/-- Reserved patterns of the two major opcodes (R62), and every other opcode (R61), are not in the core (decision D13). -/
def Obligations.ReservedEncodingsNotInCore : Prop :=
  ∀ w : Word,
    (w.extractLsb' 0 7 = 0b0110011#7 → w.extractLsb' 25 7 ∉ [0b0000000#7, 0b0100000#7, 0b0000001#7] →
      decodeWord w = .error .notInCore) ∧
    (w.extractLsb' 0 7 = 0b0110011#7 → w.extractLsb' 25 7 = 0b0100000#7 →
      w.extractLsb' 12 3 ∉ [0b000#3, 0b101#3] → decodeWord w = .error .notInCore) ∧
    (w.extractLsb' 0 7 = 0b0010011#7 → w.extractLsb' 12 3 = 0b001#3 → w.extractLsb' 25 7 ≠ 0b0000000#7 →
      decodeWord w = .error .notInCore) ∧
    (w.extractLsb' 0 7 = 0b0010011#7 → w.extractLsb' 12 3 = 0b101#3 →
      w.extractLsb' 25 7 ∉ [0b0000000#7, 0b0100000#7] → decodeWord w = .error .notInCore) ∧
    (w.extractLsb' 0 7 ∉ [0b0110011#7, 0b0010011#7] → decodeWord w = .error .notInCore)

/-- The descriptor of a decoded word (R60, immediates by R56 and R57): each field is taken from the bits the formats
name. -/
def Obligations.DecodedWordFields : Prop :=
  ∀ (w : Word) (i : Instr), decodeWord w = .ok i →
    i.descriptor.rd = w.extractLsb' 7 5 ∧ i.descriptor.rs1 = w.extractLsb' 15 5 ∧
    (w.extractLsb' 0 7 = 0b0110011#7 → i.descriptor.ty = .R ∧ i.descriptor.c = (w.extractLsb' 20 5).setWidth 32) ∧
    (w.extractLsb' 0 7 = 0b0010011#7 → i.descriptor.ty = .I ∧ i.descriptor.c =
      if w.extractLsb' 12 3 = 0b001#3 ∨ w.extractLsb' 12 3 = 0b101#3 then (w.extractLsb' 20 5).setWidth 32
      else (w.extractLsb' 20 12).signExtend 32)

/-- The two readings of a shift immediate agree (R57): the 12-bit sign-extended field in place of the 5-bit one gives the
same outcome in every state. -/
def Obligations.ShiftImmediateReadingsAgree : Prop :=
  ∀ (s : State) (rd rs1 : RegIdx) (w : Word),
    exec (.slli rd rs1 (shamtOf w)) s = exec (.slli rd rs1 (immOf w)) s ∧
    exec (.srli rd rs1 (shamtOf w)) s = exec (.srli rd rs1 (immOf w)) s ∧
    exec (.srai rd rs1 (shamtOf w)) s = exec (.srai rd rs1 (immOf w)) s

/-- Words of the spec's list 95_test_vectors.md section 2.7, one or two of each family, written out bit by bit. -/
def Obligations.WrittenOutWordsDecode : Prop :=
  decodeWord 0b01000000001000001000000110110011#32 = .ok (.sub 3 1 2) ∧
  decodeWord 0b11111111111100010000000010010011#32 = .ok (.addi 1 2 0xFFFFFFFF) ∧
  decodeWord 0b01000001111100110101001010010011#32 = .ok (.srai 5 6 31) ∧
  decodeWord 0b00000000000100110011001010010011#32 = .ok (.sltiu 5 6 1) ∧
  decodeWord 0b00000010001000001010000110110011#32 = .ok (.mulhsu 3 1 2) ∧
  decodeWord 0b00000010001000001110000110110011#32 = .ok (.rem 3 1 2)

/-- The nine pseudo-instructions (R66, from general knowledge): their expansions have the effects of the table. -/
def Obligations.PseudoInstructionEffects : Prop :=
  ∀ (s : State) (rd rs : RegIdx) (imm : BitVec 12), s.inflight = none →
    (∃ t, exec (expand .nop) s = .next t ∧ t.regs = s.regs ∧ t.output = some none) ∧
    Completes (expand (.mv rd rs)) s rd (s.read rs) ∧
    Completes (expand (.li rd imm)) s rd (imm.signExtend 32) ∧
    Completes (expand (.not rd rs)) s rd (~~~ s.read rs) ∧
    Completes (expand (.neg rd rs)) s rd (- s.read rs) ∧
    Completes (expand (.seqz rd rs)) s rd (if s.read rs = 0#32 then 1#32 else 0#32) ∧
    Completes (expand (.snez rd rs)) s rd (if s.read rs ≠ 0#32 then 1#32 else 0#32) ∧
    Completes (expand (.sltz rd rs)) s rd (if (s.read rs).toInt < 0 then 1#32 else 0#32) ∧
    Completes (expand (.sgtz rd rs)) s rd (if 0 < (s.read rs).toInt then 1#32 else 0#32)
end

