-- ==== Sys2Proof/Laws/Decode.lean ====
section
/-! SUPPORT. What an encoded word holds: the bits a row's mask keeps, and the fields the decoder takes out. -/

namespace Sys2Proof

/-- The mask of the register-register rows keeps funct7, funct3 and the opcode (R54). -/
theorem encodeR_mask (f7 : BitVec 7) (f3 : BitVec 3) (rd rs1 rs2 : RegIdx) :
    encodeR f7 f3 rd rs1 rs2 &&& 0xFE00707F#32 = encodeR f7 f3 0#5 0#5 0#5 := by
  refine BitVec.eq_of_getLsbD_eq fun i hi => ?_
  simp only [encodeR, BitVec.getLsbD_and, BitVec.getLsbD_append]
  interval_cases i <;> simp

/-- The same mask on the shift-immediate rows (R55). -/
theorem encodeShift_mask (f7 : BitVec 7) (f3 : BitVec 3) (rd rs1 : RegIdx) (c : Word) :
    encodeShift f7 f3 rd rs1 c &&& 0xFE00707F#32 = encodeShift f7 f3 0#5 0#5 0#32 := by
  refine BitVec.eq_of_getLsbD_eq fun i hi => ?_
  simp only [encodeShift, BitVec.getLsbD_and, BitVec.getLsbD_append]
  interval_cases i <;> simp

/-- The mask of the I-format rows keeps funct3 and the opcode (R55). -/
theorem encodeI_mask (f3 : BitVec 3) (rd rs1 : RegIdx) (c : Word) :
    encodeI f3 rd rs1 c &&& 0x0000707F#32 = encodeI f3 0#5 0#5 0#32 := by
  refine BitVec.eq_of_getLsbD_eq fun i hi => ?_
  simp only [encodeI, BitVec.getLsbD_and, BitVec.getLsbD_append]
  interval_cases i <;> simp

/-- The I-format mask keeps less than the other one. -/
theorem mask_mask (w : Word) : w &&& 0x0000707F#32 = w &&& 0xFE00707F#32 &&& 0x0000707F#32 := by
  rw [BitVec.and_assoc]; rfl

@[simp] theorem rdOf_encodeR (f7 : BitVec 7) (f3 : BitVec 3) (rd rs1 rs2 : RegIdx) :
    rdOf (encodeR f7 f3 rd rs1 rs2) = rd := by
  ext i hi
  simp only [rdOf, encodeR, BitVec.getElem_extractLsb', BitVec.getLsbD_append]
  interval_cases i <;> simp

@[simp] theorem rs1Of_encodeR (f7 : BitVec 7) (f3 : BitVec 3) (rd rs1 rs2 : RegIdx) :
    rs1Of (encodeR f7 f3 rd rs1 rs2) = rs1 := by
  ext i hi
  simp only [rs1Of, encodeR, BitVec.getElem_extractLsb', BitVec.getLsbD_append]
  interval_cases i <;> simp

@[simp] theorem rs2Of_encodeR (f7 : BitVec 7) (f3 : BitVec 3) (rd rs1 rs2 : RegIdx) :
    rs2Of (encodeR f7 f3 rd rs1 rs2) = rs2 := by
  ext i hi
  simp only [rs2Of, encodeR, BitVec.getElem_extractLsb', BitVec.getLsbD_append]
  interval_cases i <;> simp

@[simp] theorem rdOf_encodeI (f3 : BitVec 3) (rd rs1 : RegIdx) (c : Word) : rdOf (encodeI f3 rd rs1 c) = rd := by
  ext i hi
  simp only [rdOf, encodeI, BitVec.getElem_extractLsb', BitVec.getLsbD_append]
  interval_cases i <;> simp

@[simp] theorem rs1Of_encodeI (f3 : BitVec 3) (rd rs1 : RegIdx) (c : Word) : rs1Of (encodeI f3 rd rs1 c) = rs1 := by
  ext i hi
  simp only [rs1Of, encodeI, BitVec.getElem_extractLsb', BitVec.getLsbD_append]
  interval_cases i <;> simp

@[simp] theorem rdOf_encodeShift (f7 : BitVec 7) (f3 : BitVec 3) (rd rs1 : RegIdx) (c : Word) :
    rdOf (encodeShift f7 f3 rd rs1 c) = rd := by
  ext i hi
  simp only [rdOf, encodeShift, BitVec.getElem_extractLsb', BitVec.getLsbD_append]
  interval_cases i <;> simp

@[simp] theorem rs1Of_encodeShift (f7 : BitVec 7) (f3 : BitVec 3) (rd rs1 : RegIdx) (c : Word) :
    rs1Of (encodeShift f7 f3 rd rs1 c) = rs1 := by
  ext i hi
  simp only [rs1Of, encodeShift, BitVec.getElem_extractLsb', BitVec.getLsbD_append]
  interval_cases i <;> simp

/-- The immediate field of an encoded word is the low 12 bits of `c`. -/
theorem extract_imm_encodeI (f3 : BitVec 3) (rd rs1 : RegIdx) (c : Word) :
    (encodeI f3 rd rs1 c).extractLsb' 20 12 = c.extractLsb' 0 12 := by
  ext i hi
  simp only [encodeI, BitVec.getElem_extractLsb', BitVec.getLsbD_append]
  interval_cases i <;> simp

/-- The shift field of an encoded word is the low 5 bits of `c`. -/
theorem extract_shamt_encodeShift (f7 : BitVec 7) (f3 : BitVec 3) (rd rs1 : RegIdx) (c : Word) :
    (encodeShift f7 f3 rd rs1 c).extractLsb' 20 5 = c.extractLsb' 0 5 := by
  ext i hi
  simp only [encodeShift, BitVec.getElem_extractLsb', BitVec.getLsbD_append]
  interval_cases i <;> simp

/-- A word that fits 12 bits is the sign extension of its low 12 (R56). -/
theorem sext12_low (c : Word) (h : fitsImm12 c = true) : sext12 (c.extractLsb' 0 12) = c := by
  apply BitVec.eq_of_toNat_eq
  have hc := c.isLt
  simp only [fitsImm12, Bool.or_eq_true, decide_eq_true_eq] at h
  rw [sext12, BitVec.toNat_signExtend, BitVec.msb_eq_decide, BitVec.toNat_setWidth, BitVec.extractLsb'_toNat]
  norm_num at hc h ⊢
  split <;> omega

/-- Every sign-extended 12-bit value fits (R56). -/
theorem fitsImm12_sext12 (v : BitVec 12) : fitsImm12 (sext12 v) = true := by
  have hv := v.isLt
  simp only [fitsImm12, Bool.or_eq_true, decide_eq_true_eq]
  rw [sext12, BitVec.toNat_signExtend, BitVec.msb_eq_decide, BitVec.toNat_setWidth]
  norm_num at hv ⊢
  split <;> omega

/-- A word in 0..31 is the zero extension of its low 5 bits (R57). -/
theorem zext5_low (c : Word) (h : fitsShamt c = true) : zext5 (c.extractLsb' 0 5) = c := by
  apply BitVec.eq_of_toNat_eq
  simp only [fitsShamt, decide_eq_true_eq] at h
  rw [zext5, BitVec.toNat_setWidth, BitVec.extractLsb'_toNat]
  norm_num
  omega

/-- Every 5-bit value fits (R57). -/
theorem fitsShamt_zext5 (v : BitVec 5) : fitsShamt (zext5 v) = true := by
  have hv := v.isLt
  simp only [fitsShamt, decide_eq_true_eq, zext5, BitVec.toNat_setWidth]
  omega

theorem immOf_encodeI (f3 : BitVec 3) (rd rs1 : RegIdx) (c : Word) (h : fitsImm12 c = true) :
    immOf (encodeI f3 rd rs1 c) = c := by
  rw [immOf, extract_imm_encodeI, sext12_low c h]

theorem shamtOf_encodeShift (f7 : BitVec 7) (f3 : BitVec 3) (rd rs1 : RegIdx) (c : Word) (h : fitsShamt c = true) :
    shamtOf (encodeShift f7 f3 rd rs1 c) = c := by
  rw [shamtOf, extract_shamt_encodeShift, zext5_low c h]

/-- A word whose funct7, funct3 and opcode are known: which rows it fits (R60). -/
theorem rowR_fits {w p : Word} (h : w &&& 0xFE00707F#32 = p) (q : Word) (f : RegIdx → RegIdx → RegIdx → Instr) :
    (rowR q f).fits w = (p == q) := by simp [Row.fits, rowR, h]

theorem rowShift_fits {w p : Word} (h : w &&& 0xFE00707F#32 = p) (q : Word) (f : RegIdx → RegIdx → Word → Instr) :
    (rowShift q f).fits w = (p == q) := by simp [Row.fits, rowShift, h]

theorem rowI_fits {w p : Word} (h : w &&& 0x0000707F#32 = p) (q : Word) (f : RegIdx → RegIdx → Word → Instr) :
    (rowI q f).fits w = (p == q) := by simp [Row.fits, rowI, h]

/-- A word whose funct3 and opcode alone are known fits no register-register row of another funct3 or opcode. -/
theorem rowR_not_fits {w p q : Word} (h : w &&& 0x0000707F#32 = p) (hn : (q &&& 0x0000707F#32 == p) = false)
    (f : RegIdx → RegIdx → RegIdx → Instr) : (rowR q f).fits w = false := by
  simp only [Row.fits, rowR, beq_eq_false_iff_ne, ne_eq] at *
  intro e
  exact hn (by rw [← e, ← mask_mask, h])

theorem rowShift_not_fits {w p q : Word} (h : w &&& 0x0000707F#32 = p) (hn : (q &&& 0x0000707F#32 == p) = false)
    (f : RegIdx → RegIdx → Word → Instr) : (rowShift q f).fits w = false := by
  simp only [Row.fits, rowShift, beq_eq_false_iff_ne, ne_eq] at *
  intro e
  exact hn (by rw [← e, ← mask_mask, h])

/-- What the decoder answers, said once: a row that fits, or none does. -/
theorem decodeWord_ok {w : Word} {i : Instr} (h : decodeWord w = .ok i) :
    ∃ r ∈ rows, r.fits w = true ∧ r.build w = i := by
  unfold decodeWord at h
  split at h
  · rename_i r hr
    exact ⟨r, List.mem_of_find?_eq_some hr, by simpa using List.find?_some hr, by simpa using h⟩
  · simp at h

theorem decodeWord_error {w : Word} {e : Verdict} (h : decodeWord w = .error e) :
    ∀ r ∈ rows, r.fits w = false := by
  unfold decodeWord at h
  split at h
  · simp at h
  · rename_i hn
    intro r hr
    simpa using List.find?_eq_none.mp hn r hr

end Sys2Proof
end

