-- ==== Sys2Proof/Laws/Word.lean ====
section
/-! SUPPORT. The readings of a word, in the terms of the BitVec library. -/

namespace Sys2Proof

theorem uval_eq_toNat (v : Word) : uval v = (v.toNat : Int) := rfl

theorem sval_eq_toInt (v : Word) : sval v = v.toInt := by
  rw [BitVec.toInt_eq_msb_cond]; rfl

theorem uval_nonneg (v : Word) : 0 ≤ uval v := Int.natCast_nonneg _

theorem uval_lt (v : Word) : uval v < 4294967296 := by
  have := v.isLt; unfold uval; omega

theorem sval_range (v : Word) : -2147483648 ≤ sval v ∧ sval v < 2147483648 := by
  rw [sval_eq_toInt]
  exact ⟨by simpa using BitVec.le_toInt v, by simpa using BitVec.toInt_lt (x := v)⟩

/-- Narrowing is congruence modulo 2^32 (00_scope.md section 4). -/
theorem w32_congr (m n : Int) : w32 m = w32 n ↔ m % 4294967296 = n % 4294967296 := by
  unfold w32
  rw [← BitVec.toNat_inj, BitVec.toNat_ofInt, BitVec.toNat_ofInt]
  norm_num
  omega

@[simp] theorem w32_uval (v : Word) : w32 (uval v) = v := by
  simp [w32, uval]

@[simp] theorem w32_sval (v : Word) : w32 (sval v) = v := by
  simp [w32, sval_eq_toInt]

theorem w32_ofNat (n : Nat) : w32 (n : Int) = BitVec.ofNat 32 n := by
  simp [w32]

theorem toNat_w32 (n : Int) : ((w32 n).toNat : Int) = n % 4294967296 := by
  unfold w32
  rw [BitVec.toNat_ofInt]
  norm_num
  omega

/-- The signed and the unsigned reading agree modulo 2^32. -/
theorem sval_emod (v : Word) : sval v % 4294967296 = uval v := by
  have := uval_nonneg v; have := uval_lt v
  unfold sval; split <;> omega

end Sys2Proof
end

