-- ==== Sys2Proof/Laws/OpTable.lean ====
section
/-! SUPPORT. Each operation of the table in the terms of the BitVec library, so that no proof unfolds the integers. -/

namespace Sys2Proof.Machine

theorem addOp_eq (a b : Word) : addOp a b = a + b := by
  simp [addOp, w32, uval, BitVec.ofInt_add]

theorem subOp_eq (a b : Word) : subOp a b = a - b := by
  rw [subOp, w32, uval, uval, sub_eq_add_neg, BitVec.ofInt_add, BitVec.ofInt_neg, BitVec.sub_eq_add_neg]
  simp

theorem mulOp_eq (a b : Word) : mulOp a b = a * b := by
  simp [mulOp, w32, uval, BitVec.ofInt_mul]

theorem shiftAmount_lt (b : Word) : shiftAmount b < 32 := Nat.mod_lt _ (by decide)

theorem sllOp_eq (a b : Word) : sllOp a b = a <<< shiftAmount b := by
  apply BitVec.eq_of_toNat_eq
  zify
  rw [sllOp, toNat_w32, uval, BitVec.toNat_shiftLeft, Nat.shiftLeft_eq]
  push_cast
  rfl

theorem srlOp_eq (a b : Word) : srlOp a b = a >>> shiftAmount b := by
  apply BitVec.eq_of_toNat_eq
  have h := a.isLt
  have hd : a.toNat / 2 ^ shiftAmount b ≤ a.toNat := Nat.div_le_self _ _
  zify
  rw [srlOp, toNat_w32, uval, BitVec.toNat_ushiftRight, Nat.shiftRight_eq_div_pow]
  push_cast
  refine Int.emod_eq_of_lt (by positivity) ?_
  zify at hd h
  omega

theorem sraOp_eq (a b : Word) : sraOp a b = a.sshiftRight (shiftAmount b) := by
  rw [sraOp, sval_eq_toInt, BitVec.sshiftRight, w32, Int.shiftRight_eq_div_pow]
  push_cast
  rfl

theorem truthWord_ite (p : Bool) : truthWord p = if p then 1#32 else 0#32 := rfl

theorem sltOp_eq (a b : Word) : sltOp a b = if a.toInt < b.toInt then 1#32 else 0#32 := by
  simp [sltOp, truthWord, sval_eq_toInt]

theorem sltuOp_eq (a b : Word) : sltuOp a b = if a.toNat < b.toNat then 1#32 else 0#32 := by
  simp [sltuOp, truthWord, uval]

/-- The high half is bits 63:32 of the 64-bit two's-complement form (R106 to R108). -/
theorem highHalf_eq (p : Int) : highHalf p = (BitVec.ofInt 64 p).extractLsb' 32 32 := by
  apply BitVec.eq_of_toNat_eq
  zify
  rw [highHalf, toNat_w32, BitVec.extractLsb'_toNat, BitVec.toNat_ofInt, Nat.shiftRight_eq_div_pow]
  norm_num
  omega

theorem mulhuOp_toNat (a b : Word) : (mulhuOp a b).toNat = a.toNat * b.toNat / 2 ^ 32 := by
  have ha := a.isLt
  have hb := b.isLt
  have hp : a.toNat * b.toNat < 2 ^ 32 * 2 ^ 32 := Nat.mul_lt_mul'' ha hb
  zify
  rw [mulhuOp, highHalf, toNat_w32, uval, uval]
  zify at hp
  have h0 : (0 : Int) ≤ (a.toNat : Int) * b.toNat := by positivity
  norm_num at hp ⊢
  omega

theorem tdiv_eq (n d : Int) : tdiv n d = n.tdiv d := by
  rw [tdiv]
  obtain ⟨k, rfl | rfl⟩ := Int.eq_nat_or_neg n <;> obtain ⟨l, rfl | rfl⟩ := Int.eq_nat_or_neg d <;>
    rcases k.eq_zero_or_pos with rfl | hk <;> rcases l.eq_zero_or_pos with rfl | hl <;>
    simp [Int.neg_tdiv, Int.tdiv_neg, Int.sign_eq_one_of_pos, *]

theorem trem_eq (n d : Int) : trem n d = n.tmod d := by
  rw [trem, tdiv_eq, Int.tmod_def, mul_comm]

@[simp] theorem divisorZero_iff (b : Word) : divisorZero b = true ↔ b = 0#32 := by simp [divisorZero]

@[simp] theorem signedOverflow_iff (a b : Word) :
    signedOverflow a b = true ↔ a = 0x80000000#32 ∧ b = 0xFFFFFFFF#32 := by simp [signedOverflow]

theorem divOp_eq (a b : Word) : divOp a b =
    if b = 0#32 then 0xFFFFFFFF#32
    else if a = 0x80000000#32 ∧ b = 0xFFFFFFFF#32 then 0x80000000#32
    else w32 (a.toInt.tdiv b.toInt) := by
  simp only [divOp, divisorZero_iff, signedOverflow_iff, tdiv_eq, sval_eq_toInt]

theorem remOp_eq (a b : Word) : remOp a b =
    if b = 0#32 then a
    else if a = 0x80000000#32 ∧ b = 0xFFFFFFFF#32 then 0#32
    else w32 (a.toInt.tmod b.toInt) := by
  simp only [remOp, divisorZero_iff, signedOverflow_iff, trem_eq, sval_eq_toInt]

theorem divuOp_eq (a b : Word) : divuOp a b =
    if b = 0#32 then 0xFFFFFFFF#32 else BitVec.ofNat 32 (a.toNat / b.toNat) := by
  simp only [divuOp, divisorZero_iff, uval]
  rw [← w32_ofNat]; push_cast; rfl

theorem remuOp_eq (a b : Word) : remuOp a b =
    if b = 0#32 then a else BitVec.ofNat 32 (a.toNat % b.toNat) := by
  have h : (a.toNat : Int) - a.toNat / b.toNat * b.toNat = ((a.toNat % b.toNat : Nat) : Int) := by
    push_cast
    rw [Int.emod_def, mul_comm (b.toNat : Int)]
  simp only [remuOp, divisorZero_iff, uval, h, w32_ofNat]

end Sys2Proof.Machine
end

