-- ==== Sys2Proof/Laws/PerInstr.lean ====
section
/-! SUPPORT. Statements about every instruction as syntax, one lemma per constructor. -/

namespace Sys2Proof.Laws.EncodedFields

/-- The encoded word holds the descriptor's rd in bits 11:7, its rs1 in bits 19:15, and the low bits `11` of a 32-bit
instruction (R53 to R55). -/
def Statement (i : Instr) : Prop :=
  rdOf (encode i) = i.descriptor.rd ∧ rs1Of (encode i) = i.descriptor.rs1 ∧ (encode i).extractLsb' 0 2 = 0b11#2

theorem low_R (f7 : BitVec 7) (f3 : BitVec 3) (rd rs1 rs2 : RegIdx) :
    (encodeR f7 f3 rd rs1 rs2).extractLsb' 0 2 = 0b11#2 := by
  ext i hi
  simp only [encodeR, BitVec.getElem_extractLsb', BitVec.getLsbD_append]
  interval_cases i <;> simp

theorem low_I (f3 : BitVec 3) (rd rs1 : RegIdx) (c : Word) : (encodeI f3 rd rs1 c).extractLsb' 0 2 = 0b11#2 := by
  ext i hi
  simp only [encodeI, BitVec.getElem_extractLsb', BitVec.getLsbD_append]
  interval_cases i <;> simp

theorem low_Shift (f7 : BitVec 7) (f3 : BitVec 3) (rd rs1 : RegIdx) (c : Word) :
    (encodeShift f7 f3 rd rs1 c).extractLsb' 0 2 = 0b11#2 := by
  ext i hi
  simp only [encodeShift, BitVec.getElem_extractLsb', BitVec.getLsbD_append]
  interval_cases i <;> simp

theorem add (rd rs1 rs2 : RegIdx) : Statement (.add rd rs1 rs2) :=
  ⟨rdOf_encodeR .., rs1Of_encodeR .., low_R ..⟩
theorem sub (rd rs1 rs2 : RegIdx) : Statement (.sub rd rs1 rs2) :=
  ⟨rdOf_encodeR .., rs1Of_encodeR .., low_R ..⟩
theorem sll (rd rs1 rs2 : RegIdx) : Statement (.sll rd rs1 rs2) :=
  ⟨rdOf_encodeR .., rs1Of_encodeR .., low_R ..⟩
theorem slt (rd rs1 rs2 : RegIdx) : Statement (.slt rd rs1 rs2) :=
  ⟨rdOf_encodeR .., rs1Of_encodeR .., low_R ..⟩
theorem sltu (rd rs1 rs2 : RegIdx) : Statement (.sltu rd rs1 rs2) :=
  ⟨rdOf_encodeR .., rs1Of_encodeR .., low_R ..⟩
theorem xor (rd rs1 rs2 : RegIdx) : Statement (.xor rd rs1 rs2) :=
  ⟨rdOf_encodeR .., rs1Of_encodeR .., low_R ..⟩
theorem srl (rd rs1 rs2 : RegIdx) : Statement (.srl rd rs1 rs2) :=
  ⟨rdOf_encodeR .., rs1Of_encodeR .., low_R ..⟩
theorem sra (rd rs1 rs2 : RegIdx) : Statement (.sra rd rs1 rs2) :=
  ⟨rdOf_encodeR .., rs1Of_encodeR .., low_R ..⟩
theorem or (rd rs1 rs2 : RegIdx) : Statement (.or rd rs1 rs2) :=
  ⟨rdOf_encodeR .., rs1Of_encodeR .., low_R ..⟩
theorem and (rd rs1 rs2 : RegIdx) : Statement (.and rd rs1 rs2) :=
  ⟨rdOf_encodeR .., rs1Of_encodeR .., low_R ..⟩
theorem mul (rd rs1 rs2 : RegIdx) : Statement (.mul rd rs1 rs2) :=
  ⟨rdOf_encodeR .., rs1Of_encodeR .., low_R ..⟩
theorem mulh (rd rs1 rs2 : RegIdx) : Statement (.mulh rd rs1 rs2) :=
  ⟨rdOf_encodeR .., rs1Of_encodeR .., low_R ..⟩
theorem mulhsu (rd rs1 rs2 : RegIdx) : Statement (.mulhsu rd rs1 rs2) :=
  ⟨rdOf_encodeR .., rs1Of_encodeR .., low_R ..⟩
theorem mulhu (rd rs1 rs2 : RegIdx) : Statement (.mulhu rd rs1 rs2) :=
  ⟨rdOf_encodeR .., rs1Of_encodeR .., low_R ..⟩
theorem div (rd rs1 rs2 : RegIdx) : Statement (.div rd rs1 rs2) :=
  ⟨rdOf_encodeR .., rs1Of_encodeR .., low_R ..⟩
theorem divu (rd rs1 rs2 : RegIdx) : Statement (.divu rd rs1 rs2) :=
  ⟨rdOf_encodeR .., rs1Of_encodeR .., low_R ..⟩
theorem rem (rd rs1 rs2 : RegIdx) : Statement (.rem rd rs1 rs2) :=
  ⟨rdOf_encodeR .., rs1Of_encodeR .., low_R ..⟩
theorem remu (rd rs1 rs2 : RegIdx) : Statement (.remu rd rs1 rs2) :=
  ⟨rdOf_encodeR .., rs1Of_encodeR .., low_R ..⟩
theorem addi (rd rs1 : RegIdx) (c : Word) : Statement (.addi rd rs1 c) :=
  ⟨rdOf_encodeI .., rs1Of_encodeI .., low_I ..⟩
theorem slti (rd rs1 : RegIdx) (c : Word) : Statement (.slti rd rs1 c) :=
  ⟨rdOf_encodeI .., rs1Of_encodeI .., low_I ..⟩
theorem sltiu (rd rs1 : RegIdx) (c : Word) : Statement (.sltiu rd rs1 c) :=
  ⟨rdOf_encodeI .., rs1Of_encodeI .., low_I ..⟩
theorem xori (rd rs1 : RegIdx) (c : Word) : Statement (.xori rd rs1 c) :=
  ⟨rdOf_encodeI .., rs1Of_encodeI .., low_I ..⟩
theorem ori (rd rs1 : RegIdx) (c : Word) : Statement (.ori rd rs1 c) :=
  ⟨rdOf_encodeI .., rs1Of_encodeI .., low_I ..⟩
theorem andi (rd rs1 : RegIdx) (c : Word) : Statement (.andi rd rs1 c) :=
  ⟨rdOf_encodeI .., rs1Of_encodeI .., low_I ..⟩
theorem slli (rd rs1 : RegIdx) (c : Word) : Statement (.slli rd rs1 c) :=
  ⟨rdOf_encodeShift .., rs1Of_encodeShift .., low_Shift ..⟩
theorem srli (rd rs1 : RegIdx) (c : Word) : Statement (.srli rd rs1 c) :=
  ⟨rdOf_encodeShift .., rs1Of_encodeShift .., low_Shift ..⟩
theorem srai (rd rs1 : RegIdx) (c : Word) : Statement (.srai rd rs1 c) :=
  ⟨rdOf_encodeShift .., rs1Of_encodeShift .., low_Shift ..⟩

end Sys2Proof.Laws.EncodedFields
end

