-- ==== Sys2Proof/Laws/Registers.lean ====
section
/-! SUPPORT. The register file: read and write laws (10_state.md R14, R16, R17). -/

namespace Sys2Proof.Machine

@[simp] theorem readReg_zero (f : RegFile) : readReg f 0#5 = 0#32 := by simp [readReg]

@[simp] theorem writeReg_zero (f : RegFile) (v : Word) : writeReg f 0#5 v = f := by simp [writeReg]

theorem readReg_of_ne {i : RegIdx} (h : i ≠ 0#5) (f : RegFile) : readReg f i = f[i.toNat]'(i.isLt) := by
  simp [readReg, h]

theorem writeReg_of_ne {i : RegIdx} (h : i ≠ 0#5) (f : RegFile) (v : Word) :
    writeReg f i v = f.set i.toNat v i.isLt := by
  simp [writeReg, h]

theorem readReg_writeReg_same {i : RegIdx} (h : i ≠ 0#5) (f : RegFile) (v : Word) :
    readReg (writeReg f i v) i = v := by
  simp [readReg, writeReg, h]

theorem readReg_writeReg_other {i j : RegIdx} (h : j ≠ i) (f : RegFile) (v : Word) :
    readReg (writeReg f i v) j = readReg f j := by
  have hn : i.toNat ≠ j.toNat := fun e => h (BitVec.toNat_inj.mp e).symm
  by_cases hi : i = 0#5
  · simp [writeReg, hi]
  · simp [readReg, writeReg, hi, Vector.getElem_set_ne _ _ hn]

/-- The stored word of slot 0 survives every write (R14). -/
@[simp] theorem writeReg_slot_zero (f : RegFile) (i : RegIdx) (v : Word) : (writeReg f i v)[0] = f[0] := by
  by_cases hi : i = 0#5
  · simp [writeReg, hi]
  · have hn : i.toNat ≠ 0 := fun e => hi (BitVec.toNat_inj.mp (by simpa using e))
    simp [writeReg, hi, Vector.getElem_set_ne _ _ hn]

@[simp] theorem State.read_zero (s : State) : s.read 0#5 = 0#32 := readReg_zero s.regs

end Sys2Proof.Machine
end

