-- ==== Sys2Proof/Laws/State.lean ====
section
/-! SUPPORT. One lemma per field per update of the state, so that no proof unfolds a record update. -/

namespace Sys2Proof.Machine

variable (s : State) (rd : RegIdx) (v : Word) (d : Descriptor) (f : RegFile) (r : Record)
variable (rr : ResetRegs) (p : Params) (nbits w : Nat)

@[simp] theorem snapshot_op : (snapshot d f).op = d.op := rfl
@[simp] theorem snapshot_rd : (snapshot d f).rd = d.rd := rfl
@[simp] theorem snapshot_a : (snapshot d f).a = operandA d f := rfl
@[simp] theorem snapshot_b : (snapshot d f).b = operandB d f := rfl
@[simp] theorem snapshot_result : (snapshot d f).result = none := rfl
@[simp] theorem snapshot_stage : (snapshot d f).stage = .decoded := rfl

@[simp] theorem executed_op : r.executed.op = r.op := rfl
@[simp] theorem executed_rd : r.executed.rd = r.rd := rfl
@[simp] theorem executed_a : r.executed.a = r.a := rfl
@[simp] theorem executed_b : r.executed.b = r.b := rfl
@[simp] theorem executed_result : r.executed.result = some (opFn r.op r.a r.b) := rfl
@[simp] theorem executed_stage : r.executed.stage = .executed := rfl

@[simp] theorem retire_inflight : (retire rd v s).inflight = none := by unfold retire; split <;> rfl
@[simp] theorem retire_params : (retire rd v s).params = s.params := by unfold retire; split <;> rfl
@[simp] theorem retire_pending : (retire rd v s).pending = s.pending := by unfold retire; split <;> rfl
@[simp] theorem retire_regs : (retire rd v s).regs = writeReg s.regs rd v := by
  unfold retire; split <;> simp_all
@[simp] theorem retire_output : (retire rd v s).output = some (if rd = 0#5 then none else some v) := by
  unfold retire; split <;> rfl

@[simp] theorem create_inflight : (State.create rr p).inflight = none := rfl
@[simp] theorem create_params : (State.create rr p).params = p := rfl
@[simp] theorem create_output : (State.create rr p).output = none := rfl
@[simp] theorem create_pending : (State.create rr p).pending = [] := rfl
theorem create_regs : (State.create rr p).regs = #v[0#32] ++ rr := rfl

@[simp] theorem create_slot_zero : (State.create rr p).regs[0] = 0#32 := by
  simp only [create_regs]
  rw [Vector.getElem_append_left (by decide)]
  rfl

@[simp] theorem withFetchWord_regs : (s.withFetchWord nbits w).regs = s.regs := rfl
@[simp] theorem withFetchWord_inflight : (s.withFetchWord nbits w).inflight = s.inflight := rfl
@[simp] theorem withFetchWord_params : (s.withFetchWord nbits w).params = s.params := rfl
@[simp] theorem withFetchWord_output : (s.withFetchWord nbits w).output = s.output := rfl
@[simp] theorem withFetchWord_pending :
    (s.withFetchWord nbits w).pending = .word (tableWord nbits w) :: s.pending := rfl

theorem read_retire_same (h : rd ≠ 0#5) : (retire rd v s).read rd = v := by
  simp [State.read, readReg_writeReg_same h]

theorem read_retire_other {i : RegIdx} (h : i ≠ rd) : (retire rd v s).read i = s.read i := by
  simp [State.read, readReg_writeReg_other h]

/-- Two states with the same five fields are the same state. -/
theorem State.ext_fields {s t : State} (h1 : s.regs = t.regs) (h2 : s.inflight = t.inflight) (h3 : s.params = t.params)
    (h4 : s.output = t.output) (h5 : s.pending = t.pending) : s = t := by
  cases s; cases t; simp_all

end Sys2Proof.Machine
end

