-- ==== Sys2Proof/Laws/Stages.lean ====
section
/-! SUPPORT. What each stage, and a whole instruction, can do: one inversion lemma each, and the run of an admitted
descriptor from a state with no record in flight. -/

namespace Sys2Proof.Machine

theorem stageViolation_not_next {c : StageCall} {s t : State} : stageViolation c s ≠ .next t := by
  unfold stageViolation; split <;> simp

/-- Everything decode can do when it goes on (R68). -/
theorem decodeStage_next {d : Descriptor} {s t : State} (h : decodeStage d s = .next t) :
    admission s.params d = none ∧ s.inflight = none ∧ t = { s with inflight := some (snapshot d s.regs) } := by
  unfold decodeStage at h
  split at h
  · simp at h
  · rename_i ha
    split at h
    · simp at h
    · rename_i hi
      exact ⟨ha, hi, by simpa using h.symm⟩

/-- Everything execute can do when it goes on (R71). -/
theorem executeStage_next {s t : State} (h : executeStage s = .next t) :
    ∃ r, s.inflight = some r ∧ r.stage = .decoded ∧ t = { s with inflight := some r.executed } := by
  unfold executeStage at h
  split at h
  · rename_i r hr
    split at h
    · exact ⟨r, hr, ‹_›, by simpa using h.symm⟩
    · exact absurd h stageViolation_not_next
  · exact absurd h stageViolation_not_next

/-- Everything write_back can do when it goes on (R73). -/
theorem writeBackStage_next {s t : State} (h : writeBackStage s = .next t) :
    ∃ r v, s.inflight = some r ∧ r.stage = .executed ∧ r.result = some v ∧ t = retire r.rd v s := by
  unfold writeBackStage at h
  split at h
  · rename_i r hr
    split at h
    · split at h
      · rename_i v hv
        exact ⟨r, v, hr, ‹_›, hv, by simpa using h.symm⟩
      · exact absurd h stageViolation_not_next
    · exact absurd h stageViolation_not_next
  · exact absurd h stageViolation_not_next

theorem decodeStage_idle {d : Descriptor} {s : State} (ha : admission s.params d = none) (hi : s.inflight = none) :
    decodeStage d s = .next { s with inflight := some (snapshot d s.regs) } := by
  simp [decodeStage, ha, hi]

theorem executeStage_decoded {s : State} {r : Record} (hr : s.inflight = some r) (hs : r.stage = .decoded) :
    executeStage s = .next { s with inflight := some r.executed } := by
  simp [executeStage, hr, hs]

theorem writeBackStage_executed {s : State} {r : Record} {v : Word} (hr : s.inflight = some r)
    (hs : r.stage = .executed) (hv : r.result = some v) : writeBackStage s = .next (retire r.rd v s) := by
  simp [writeBackStage, hr, hs, hv]

/-- Retiring looks at nothing of the record in flight. -/
theorem retire_inflight_irrelevant (rd : RegIdx) (v : Word) (s : State) (x : Option Record) :
    retire rd v { s with inflight := x } = retire rd v s := rfl

/-- A whole instruction, admitted and with no record in flight: the operation on the two operands, retired (R76). -/
theorem runDescriptor_idle {d : Descriptor} {s : State} (ha : admission s.params d = none) (hi : s.inflight = none) :
    runDescriptor d s = .next (retire d.rd (opFn d.op (operandA d s.regs) (operandB d s.regs)) s) := by
  rw [runDescriptor, decodeStage_idle ha hi, andThen, executeStage_decoded rfl (snapshot_stage _ _), andThen,
    writeBackStage_executed rfl (executed_stage _) (executed_result _)]
  rfl

/-- Everything a whole instruction can do when it goes on. -/
theorem runDescriptor_next {d : Descriptor} {s t : State} (h : runDescriptor d s = .next t) :
    admission s.params d = none ∧ s.inflight = none ∧
      t = retire d.rd (opFn d.op (operandA d s.regs) (operandB d s.regs)) s := by
  by_cases ha : admission s.params d = none
  · by_cases hi : s.inflight = none
    · rw [runDescriptor_idle ha hi] at h
      exact ⟨ha, hi, by simpa using h.symm⟩
    · obtain ⟨r, hr⟩ := Option.ne_none_iff_exists'.mp hi
      simp [runDescriptor, decodeStage, ha, hr, andThen] at h
  · obtain ⟨x, hx⟩ := Option.ne_none_iff_exists'.mp ha
    simp [runDescriptor, decodeStage, hx, andThen] at h

/-- With a record in flight an admitted instruction is refused (R75). -/
theorem runDescriptor_busy {d : Descriptor} {s : State} {r : Record} (ha : admission s.params d = none)
    (hr : s.inflight = some r) : runDescriptor d s = .refused .recordInFlight := by
  simp [runDescriptor, decodeStage, ha, hr, andThen]

/-- What the boundary refuses is refused, whatever is in flight (R49, R84). -/
theorem runDescriptor_refused {d : Descriptor} {s : State} {why : Refusal} (ha : admission s.params d = some why) :
    runDescriptor d s = .refused why := by
  simp [runDescriptor, decodeStage, ha, andThen]

theorem admission_regReg (p : Params) (op : Op) (rd rs1 rs2 : RegIdx) :
    admission p (regReg op rd rs1 rs2) = none := by
  have := rs2.isLt
  simp [admission, regReg]
  omega

theorem operandB_regReg (op : Op) (rd rs1 rs2 : RegIdx) (f : RegFile) :
    operandB (regReg op rd rs1 rs2) f = readReg f rs2 := by
  simp only [operandB, regReg]
  congr 1
  ext i hi
  simp [hi]
  omega

theorem admission_regImm {op : Op} (h : standardImmediate op = true) (p : Params) (rd rs1 : RegIdx) (c : Word) :
    admission p (regImm op rd rs1 c) = none := by
  simp [admission, regImm, h]

/-- A register-register instruction with no record in flight. -/
theorem run_regReg {s : State} (hi : s.inflight = none) (op : Op) (rd rs1 rs2 : RegIdx) :
    runDescriptor (regReg op rd rs1 rs2) s = .next (retire rd (opFn op (s.read rs1) (s.read rs2)) s) := by
  rw [runDescriptor_idle (admission_regReg _ _ _ _ _) hi, operandB_regReg]; rfl

/-- A standard register-immediate instruction with no record in flight. -/
theorem run_regImm {s : State} (hi : s.inflight = none) {op : Op} (h : standardImmediate op = true) (rd rs1 : RegIdx)
    (c : Word) : runDescriptor (regImm op rd rs1 c) s = .next (retire rd (opFn op (s.read rs1) c) s) := by
  rw [runDescriptor_idle (admission_regImm h _ _ _ _) hi]; rfl

/-- Every arm of exec is the run of its instruction's descriptor (R60, R82). -/
theorem exec_eq_runDescriptor (i : Instr) (s : State) : exec i s = runDescriptor i.descriptor s := by
  cases i <;> rfl

theorem admission_descriptor (p : Params) (i : Instr) : admission p i.descriptor = none := by
  cases i <;> first
    | exact admission_regReg p _ _ _ _
    | exact admission_regImm rfl p _ _ _

/-- An instruction with no record in flight answers a next state. -/
theorem exec_idle {s : State} (hi : s.inflight = none) (i : Instr) :
    exec i s = .next (retire i.descriptor.rd
      (opFn i.descriptor.op (operandA i.descriptor s.regs) (operandB i.descriptor s.regs)) s) := by
  rw [exec_eq_runDescriptor, runDescriptor_idle (admission_descriptor _ i) hi]

theorem exec_busy {s : State} {r : Record} (hr : s.inflight = some r) (i : Instr) :
    exec i s = .refused .recordInFlight := by
  rw [exec_eq_runDescriptor, runDescriptor_busy (admission_descriptor _ i) hr]

end Sys2Proof.Machine
end

