-- ==== Sys2Proof/Laws/Step.lean ====
section
/-! SUPPORT. Everything a step can do: the inversion of `step`, and the step on each kind of input. -/

namespace Sys2Proof.Machine

theorem takeInput_nil {s : State} (h : s.pending = []) : takeInput s = none := by simp [takeInput, h]

theorem takeInput_cons {s : State} {q : Input} {rest : List Input} (h : s.pending = q :: rest) :
    takeInput s = some (q, { s with pending := rest }) := by simp [takeInput, h]

theorem step_idle {s : State} (h : s.pending = []) : step s = .next s := by simp [step, takeInput_nil h]

theorem step_word_ok {s : State} {w : Word} {i : Instr} {rest : List Input} (h : s.pending = .word w :: rest)
    (hd : decodeWord w = .ok i) : step s = exec i { s with pending := rest } := by
  simp [step, takeInput_cons h, hd]

theorem step_word_error {s : State} {w : Word} {e : Verdict} {rest : List Input} (h : s.pending = .word w :: rest)
    (hd : decodeWord w = .error e) : step s = .refused (.notInCore w) := by
  simp [step, takeInput_cons h, hd]

theorem step_descriptor {s : State} {d : Descriptor} {rest : List Input} (h : s.pending = .descriptor d :: rest) :
    step s = runDescriptor d { s with pending := rest } := by simp [step, takeInput_cons h]

theorem step_decode {s : State} {d : Descriptor} {rest : List Input} (h : s.pending = .decode d :: rest) :
    step s = decodeStage d { s with pending := rest } := by simp [step, takeInput_cons h]

theorem step_execute {s : State} {rest : List Input} (h : s.pending = .execute :: rest) :
    step s = executeStage { s with pending := rest } := by simp [step, takeInput_cons h]

theorem step_writeBack {s : State} {rest : List Input} (h : s.pending = .writeBack :: rest) :
    step s = writeBackStage { s with pending := rest } := by simp [step, takeInput_cons h]

/-- A descriptor that may be presented, with no record in flight, runs to its end in one step. -/
theorem step_descriptor_idle {s : State} {d : Descriptor} {rest : List Input} (h : s.pending = .descriptor d :: rest)
    (ha : admission s.params d = none) (hi : s.inflight = none) :
    step s = .next (retire d.rd (opFn d.op (operandA d s.regs) (operandB d s.regs)) { s with pending := rest }) := by
  rw [step_descriptor h]
  exact runDescriptor_idle (s := { s with pending := rest }) ha hi

/-- A decode call with no record in flight. -/
theorem step_decode_idle {s : State} {d : Descriptor} {rest : List Input} (h : s.pending = .decode d :: rest)
    (ha : admission s.params d = none) (hi : s.inflight = none) :
    step s = .next { s with pending := rest, inflight := some (snapshot d s.regs) } := by
  rw [step_decode h]
  exact decodeStage_idle (s := { s with pending := rest }) ha hi

/-- An execute call in stage Decoded. -/
theorem step_execute_decoded {s : State} {r : Record} {rest : List Input} (h : s.pending = .execute :: rest)
    (hr : s.inflight = some r) (hs : r.stage = .decoded) :
    step s = .next { s with pending := rest, inflight := some r.executed } := by
  rw [step_execute h]
  exact executeStage_decoded (s := { s with pending := rest }) hr hs

/-- A write_back call in stage Executed. -/
theorem step_writeBack_executed {s : State} {r : Record} {v : Word} {rest : List Input}
    (h : s.pending = .writeBack :: rest) (hr : s.inflight = some r) (hs : r.stage = .executed)
    (hv : r.result = some v) : step s = .next (retire r.rd v { s with pending := rest }) := by
  rw [step_writeBack h]
  exact writeBackStage_executed (s := { s with pending := rest }) hr hs hv

theorem run_succ_next {n : Nat} {s t : State} (h : step s = .next t) : run (n + 1) s = run n t := by
  rw [run, h]; rfl

theorem core_run_succ (M : Host.Core) (n : Nat) (s : M.State) :
    Host.Core.run M (n + 1) s = match M.step s with
      | .next t    => Host.Core.run M n t
      | .fault f   => .fault f
      | .refused r => .refused r := rfl

/-- The runs of the claims are the runs of the host's interface. -/
theorem run_eq_core (n : Nat) (s : State) : Host.Core.run core n s = run n s := by
  induction n generalizing s with
  | zero => rfl
  | succ n ih =>
    refine (core_run_succ core n s).trans ?_
    rcases h : step s with t | f | r
    · have h' : core.step s = .next t := h
      rw [h', run_succ_next h]; exact ih t
    · have h' : core.step s = .fault f := h
      rw [h', run, h]; rfl
    · have h' : core.step s = .refused r := h
      rw [h', run, h]; rfl

/-- The descriptor a whole-instruction input stands for. -/
def Runs (q : Input) (d : Descriptor) : Prop :=
  q = .descriptor d ∨ ∃ w i, q = .word w ∧ decodeWord w = .ok i ∧ d = i.descriptor

/-- Everything a step can do when it goes on, with its guards: stay idle, run a whole instruction, or run one stage. -/
inductive StepCase (s t : State) : Prop where
  | idle (hp : s.pending = []) (ht : t = s)
  | instruction (q : Input) (rest : List Input) (d : Descriptor) (hp : s.pending = q :: rest) (hq : Runs q d)
      (ha : admission s.params d = none) (hi : s.inflight = none)
      (ht : t = retire d.rd (opFn d.op (operandA d s.regs) (operandB d s.regs)) { s with pending := rest })
  | decode (rest : List Input) (d : Descriptor) (hp : s.pending = .decode d :: rest)
      (ha : admission s.params d = none) (hi : s.inflight = none)
      (ht : t = { s with pending := rest, inflight := some (snapshot d s.regs) })
  | execute (rest : List Input) (r : Record) (hp : s.pending = .execute :: rest) (hr : s.inflight = some r)
      (hs : r.stage = .decoded) (ht : t = { s with pending := rest, inflight := some r.executed })
  | writeBack (rest : List Input) (r : Record) (v : Word) (hp : s.pending = .writeBack :: rest)
      (hr : s.inflight = some r) (hs : r.stage = .executed) (hv : r.result = some v)
      (ht : t = retire r.rd v { s with pending := rest })

theorem step_cases {s t : State} (h : step s = .next t) : StepCase s t := by
  match hp : s.pending with
  | [] =>
    rw [step_idle hp] at h
    exact .idle hp (by simpa using h.symm)
  | .word w :: rest =>
    match hd : decodeWord w with
    | .ok i =>
      rw [step_word_ok hp hd, exec_eq_runDescriptor] at h
      obtain ⟨ha, hi, ht⟩ := runDescriptor_next h
      exact .instruction _ rest i.descriptor hp (.inr ⟨w, i, rfl, hd, rfl⟩) ha hi ht
    | .error e => simp [step_word_error hp hd] at h
  | .descriptor d :: rest =>
    rw [step_descriptor hp] at h
    obtain ⟨ha, hi, ht⟩ := runDescriptor_next h
    exact .instruction _ rest d hp (.inl rfl) ha hi ht
  | .decode d :: rest =>
    rw [step_decode hp] at h
    obtain ⟨ha, hi, ht⟩ := decodeStage_next h
    exact .decode rest d hp ha hi ht
  | .execute :: rest =>
    rw [step_execute hp] at h
    obtain ⟨r, hr, hs, ht⟩ := executeStage_next h
    exact .execute rest r hp hr hs ht
  | .writeBack :: rest =>
    rw [step_writeBack hp] at h
    obtain ⟨r, v, hr, hs, hv, ht⟩ := writeBackStage_next h
    exact .writeBack rest r v hp hr hs hv ht

/-- The state `retire` gives is the one `Retires` describes. -/
theorem retires_retire (rd : RegIdx) (v : Word) (s : State) : Retires s rd v (retire rd v s) := by
  refine ⟨fun h => ?_, fun h => ?_, fun r hr => ?_, ?_, ?_, ?_, ?_, ?_⟩ <;>
    simp_all [read_retire_same, read_retire_other]

/-- A register-register instruction with no record in flight completes with the word of its operation. -/
theorem completes_regReg {s : State} (h : s.inflight = none) {op : Op} {rd rs1 rs2 : RegIdx} {i : Instr} {v : Word}
    (he : exec i s = runDescriptor (regReg op rd rs1 rs2) s) (hv : opFn op (s.read rs1) (s.read rs2) = v) :
    Completes i s rd v :=
  hv ▸ ⟨_, he.trans (run_regReg h op rd rs1 rs2), retires_retire _ _ _⟩

/-- A standard register-immediate instruction with no record in flight completes with the word of its operation. -/
theorem completes_regImm {s : State} (h : s.inflight = none) {op : Op} (ho : standardImmediate op = true)
    {rd rs1 : RegIdx} {c : Word} {i : Instr} {v : Word} (he : exec i s = runDescriptor (regImm op rd rs1 c) s)
    (hv : opFn op (s.read rs1) c = v) : Completes i s rd v :=
  hv ▸ ⟨_, he.trans (run_regImm h ho rd rs1 c), retires_retire _ _ _⟩

/-- `Admitted`, in the spec's words, is what the boundary check answers. -/
theorem admission_none_iff (p : Params) (d : Descriptor) : admission p d = none ↔ Admitted p d := by
  obtain ⟨op, rd, rs1, c, ty⟩ := d
  cases ty
  · simp [admission, Admitted]
  · cases op <;> simp [admission, Admitted, standardImmediate, standardImmediateOps]

end Sys2Proof.Machine
end

