-- ==== Sys2Proof/Tests/Slice0.lean ====
section
/-! SUPPORT. The model's own tests: expected values are the spec's (95_test_vectors.md and the examples of the rules),
words are written out from the encoding tables R54, R55, R58 and R59; and for every statement with hypotheses a witness
that meets them. -/

namespace Sys2Proof.Tests

open Sys2Proof.Machine

/-- Reset with two registers set. -/
def st (x1 x2 : Word) : State :=
  { State.reset with regs := writeReg (writeReg State.reset.regs 1 x1) 2 x2 }

/-- A state with these inputs waiting. -/
def feed (s : State) (qs : List Input) : State := { s with pending := qs }

/-- Other parameters. -/
def setup (v : StageViolation) (nonstandard : Bool) (s : State) : State := { s with params := ⟨v, nonstandard⟩ }

/-- A next state, else the state given. -/
def nextOr (s : State) (o : Result) : State :=
  match o with
  | .next t => t
  | .fault _ => s
  | .refused _ => s

/-- What a next state holds in a register. -/
def left (o : Result) (r : RegIdx) : Option Word :=
  match o with
  | .next t => some (t.read r)
  | .fault _ => none
  | .refused _ => none

/-- What a next state returned. -/
def returned (o : Result) : Option (Option Word) :=
  match o with
  | .next t => t.output
  | .fault _ => none
  | .refused _ => none

/-- Why there is no next state. -/
def refusal (o : Result) : Option Refusal :=
  match o with
  | .next _ => none
  | .fault _ => none
  | .refused r => some r

/-- The fault. -/
def faulted (o : Result) : Option Fault :=
  match o with
  | .next _ => none
  | .fault f => some f
  | .refused _ => none

/-! Well-formedness: an ill-formed term for each check. -/

theorem test_wf_imm12_high : (Instr.addi 1 2 0x00000800).wf = false := by decide
theorem test_wf_imm12_low : (Instr.xori 1 2 0xFFFFF7FF).wf = false := by decide
theorem test_wf_shamt : (Instr.slli 1 2 0x00000020).wf = false := by decide
theorem test_wf_imm12_edges : (Instr.sltiu 1 2 0x000007FF).wf = true ∧ (Instr.sltiu 1 2 0xFFFFF800).wf = true := by
  decide
theorem test_wf_shamt_edge : (Instr.srai 1 2 0x0000001F).wf = true := by decide

/-! Decoding: one word for each constructor (95_test_vectors.md section 2.7). -/

theorem test_decode_add : decodeWord 0b00000000001000001000000110110011#32 = .ok (.add 3 1 2) := by decide
theorem test_decode_sub : decodeWord 0b01000000001000001000000110110011#32 = .ok (.sub 3 1 2) := by decide
theorem test_decode_sll : decodeWord 0b00000000001000001001000110110011#32 = .ok (.sll 3 1 2) := by decide
theorem test_decode_slt : decodeWord 0b00000000001000001010000110110011#32 = .ok (.slt 3 1 2) := by decide
theorem test_decode_sltu : decodeWord 0b00000000001000001011000110110011#32 = .ok (.sltu 3 1 2) := by decide
theorem test_decode_xor : decodeWord 0b00000000001000001100000110110011#32 = .ok (.xor 3 1 2) := by decide
theorem test_decode_srl : decodeWord 0b00000000001000001101000110110011#32 = .ok (.srl 3 1 2) := by decide
theorem test_decode_sra : decodeWord 0b01000000001000001101000110110011#32 = .ok (.sra 3 1 2) := by decide
theorem test_decode_or : decodeWord 0b00000000001000001110000110110011#32 = .ok (.or 3 1 2) := by decide
theorem test_decode_and : decodeWord 0b00000000001000001111000110110011#32 = .ok (.and 3 1 2) := by decide
theorem test_decode_mul : decodeWord 0b00000010001000001000000110110011#32 = .ok (.mul 3 1 2) := by decide
theorem test_decode_mulh : decodeWord 0b00000010001000001001000110110011#32 = .ok (.mulh 3 1 2) := by decide
theorem test_decode_mulhsu : decodeWord 0b00000010001000001010000110110011#32 = .ok (.mulhsu 3 1 2) := by decide
theorem test_decode_mulhu : decodeWord 0b00000010001000001011000110110011#32 = .ok (.mulhu 3 1 2) := by decide
theorem test_decode_div : decodeWord 0b00000010001000001100000110110011#32 = .ok (.div 3 1 2) := by decide
theorem test_decode_divu : decodeWord 0b00000010001000001101000110110011#32 = .ok (.divu 3 1 2) := by decide
theorem test_decode_rem : decodeWord 0b00000010001000001110000110110011#32 = .ok (.rem 3 1 2) := by decide
theorem test_decode_remu : decodeWord 0b00000010001000001111000110110011#32 = .ok (.remu 3 1 2) := by decide
theorem test_decode_addi : decodeWord 0b11111111111100010000000010010011#32 = .ok (.addi 1 2 0xFFFFFFFF) := by decide
theorem test_decode_slti : decodeWord 0b11111111111100110010001010010011#32 = .ok (.slti 5 6 0xFFFFFFFF) := by decide
theorem test_decode_sltiu : decodeWord 0b00000000000100110011001010010011#32 = .ok (.sltiu 5 6 0x00000001) := by decide
theorem test_decode_xori : decodeWord 0b11111111111100110100001010010011#32 = .ok (.xori 5 6 0xFFFFFFFF) := by decide
theorem test_decode_ori : decodeWord 0b10000000000000110110001010010011#32 = .ok (.ori 5 6 0xFFFFF800) := by decide
theorem test_decode_andi : decodeWord 0b01111111111100110111001010010011#32 = .ok (.andi 5 6 0x000007FF) := by decide
theorem test_decode_slli : decodeWord 0b00000001111100110001001010010011#32 = .ok (.slli 5 6 0x0000001F) := by decide
theorem test_decode_srli : decodeWord 0b00000000000100110101001010010011#32 = .ok (.srli 5 6 0x00000001) := by decide
theorem test_decode_srai : decodeWord 0b01000001111100110101001010010011#32 = .ok (.srai 5 6 0x0000001F) := by decide

/-! Fields at their ends (section 2.7). -/

theorem test_decode_add_x31 : decodeWord 0b00000001111111111000111110110011#32 = .ok (.add 31 31 31) := by decide
theorem test_decode_nop : decodeWord 0x00000013#32 = .ok (.addi 0 0 0) := by decide
theorem test_decode_addi_x31 : decodeWord 0x800F8F93#32 = .ok (.addi 31 31 0xFFFFF800) := by decide
theorem test_decode_addi_x0 : decodeWord 0x7FF00513#32 = .ok (.addi 10 0 0x000007FF) := by decide
theorem test_encode_sub : encode (.sub 3 1 2) = 0x402081B3#32 := by decide
theorem test_encode_ori : encode (.ori 5 6 0xFFFFF800) = 0x80036293#32 := by decide
theorem test_encode_srai : encode (.srai 5 6 31) = 0x41F35293#32 := by decide

/-- The other instructions of RV32I and the non-words of section 2.7. -/
theorem test_not_in_core_other : [0x00000000#32, 0xFFFFFFFF#32, 0x0000006F#32, 0x00008067#32, 0x00208463#32,
    0x0000A183#32, 0x0030A023#32, 0x000011B7#32, 0x00001197#32, 0x0FF0000F#32, 0x00000073#32, 0x00100073#32,
    0x30200073#32, 0x30009073#32, 0x00000001#32, 0x0020813B#32, 0x00000053#32].all
    (fun w => decodeWord w == .error .notInCore) = true := by decide

/-- The reserved patterns of the two major opcodes in section 2.7. -/
theorem test_not_in_core_reserved : [0x402091B3#32, 0x0420C1B3#32, 0x802081B3#32, 0x42208133#32, 0x40131293#32,
    0x02135293#32, 0x80135293#32].all (fun w => decodeWord w == .error .notInCore) = true := by decide

/-- The table's numbering, and a word that is refused. -/
theorem test_table_word : decodeTableWord 32 0x022081B3 = some (.mul 3 1 2) ∧ decodeTableWord 32 0x73 = none := by
  decide

theorem test_first_step_runs : left (step (State.reset.withFetchWord 32 0xFFF00113)) 2 = some 0xFFFFFFFF := by decide

/-! Addition, subtraction and logic: values of 95_test_vectors.md sections 2.2 and 2.3. -/

theorem test_add : left (step ((st 0x7FFFFFFF 0x00000001).withFetchWord 32 0x002081B3)) 3 = some 0x80000000 := by decide
theorem test_add_corner : left (exec (.add 3 1 2) (st 0xFFFFFFFF 0x00000001)) 3 = some 0x00000000 := by decide
theorem test_sub : left (step ((st 0x00000032 0x00000014).withFetchWord 32 0x402081B3)) 3 = some 0x0000001E := by decide
theorem test_sub_corner : left (exec (.sub 3 1 2) (st 0x00000000 0x00000001)) 3 = some 0xFFFFFFFF := by decide
theorem test_and : left (step ((st 0x12345678 0x9ABCDEF0).withFetchWord 32 0x0020F1B3)) 3 = some 0x12345670 := by decide
theorem test_or : left (step ((st 0x12345678 0x9ABCDEF0).withFetchWord 32 0x0020E1B3)) 3 = some 0x9ABCDEF8 := by decide
theorem test_xor : left (step ((st 0x12345678 0x9ABCDEF0).withFetchWord 32 0x0020C1B3)) 3 = some 0x88888888 := by decide
theorem test_addi : left (step ((st 0x00000800 0).withFetchWord 32 0x80008193)) 3 = some 0x00000000 := by decide
theorem test_addi_corner : left (exec (.addi 3 1 0xFFFFFFFF) (st 0x00000000 0)) 3 = some 0xFFFFFFFF := by decide
theorem test_andi : left (step ((st 0xDEADBEEF 0).withFetchWord 32 0x8000F193)) 3 = some 0xDEADB800 := by decide
theorem test_andi_corner : left (exec (.andi 3 1 0x000007FF) (st 0xDEADBEEF 0)) 3 = some 0x000006EF := by decide
theorem test_ori : left (step ((st 0x12345678 0).withFetchWord 32 0x8000E193)) 3 = some 0xFFFFFE78 := by decide
theorem test_xori : left (step ((st 0x12345678 0).withFetchWord 32 0xFFF0C193)) 3 = some 0xEDCBA987 := by decide

/-! Shifts: values of 95_test_vectors.md sections 2.2 and 2.3. -/

theorem test_sll : left (step ((st 0xDEADBEEF 0x00000021).withFetchWord 32 0x002091B3)) 3 = some 0xBD5B7DDE := by decide
theorem test_sll_corner : left (exec (.sll 3 1 2) (st 0xDEADBEEF 0x00000020)) 3 = some 0xDEADBEEF := by decide
theorem test_srl : left (step ((st 0xDEADBEEF 0xFFFFFFE4).withFetchWord 32 0x0020D1B3)) 3 = some 0x0DEADBEE := by decide
theorem test_srl_corner : left (exec (.srl 3 1 2) (st 0x80000000 0x0000001F)) 3 = some 0x00000001 := by decide
theorem test_sra : left (step ((st 0xDEADBEEF 0xFFFFFFE4).withFetchWord 32 0x4020D1B3)) 3 = some 0xFDEADBEE := by decide
theorem test_sra_corner : left (exec (.sra 3 1 2) (st 0x80000000 0x0000001F)) 3 = some 0xFFFFFFFF := by decide
theorem test_slli : left (step ((st 0xDEADBEEF 0).withFetchWord 32 0x00109193)) 3 = some 0xBD5B7DDE := by decide
theorem test_srli : left (step ((st 0x80000000 0).withFetchWord 32 0x01F0D193)) 3 = some 0x00000001 := by decide
theorem test_srai : left (step ((st 0x7FFFFFFF 0).withFetchWord 32 0x41E0D193)) 3 = some 0x00000001 := by decide
theorem test_srai_corner : left (exec (.srai 3 1 0x0000001F) (st 0x80000000 0)) 3 = some 0xFFFFFFFF := by decide

/-! Comparisons: values of 95_test_vectors.md sections 2.2 and 2.3. -/

theorem test_slt : left (step ((st 0x80000000 0x00000001).withFetchWord 32 0x0020A1B3)) 3 = some 0x00000001 := by decide
theorem test_slt_corner : left (exec (.slt 3 1 2) (st 0x00000001 0xFFFFFFFF)) 3 = some 0x00000000 := by decide
theorem test_sltu : left (step ((st 0x80000000 0x00000001).withFetchWord 32 0x0020B1B3)) 3 = some 0x00000000 := by decide
theorem test_sltu_corner : left (exec (.sltu 3 1 2) (st 0x00000001 0xFFFFFFFF)) 3 = some 0x00000001 := by decide
theorem test_slti : left (step ((st 0xFFFFF7FF 0).withFetchWord 32 0x8000A193)) 3 = some 0x00000001 := by decide
theorem test_slti_corner : left (exec (.slti 3 1 0xFFFFFFFF) (st 0x00000000 0)) 3 = some 0x00000000 := by decide
theorem test_sltiu : left (step ((st 0xFFFFFFFE 0).withFetchWord 32 0xFFF0B193)) 3 = some 0x00000001 := by decide
theorem test_sltiu_corner : left (exec (.sltiu 3 1 0x000007FF) (st 0x00000800 0)) 3 = some 0x00000000 := by decide

/-! Multiplier: values of 95_test_vectors.md sections 2.2 and 2.3. -/

theorem test_mul : left (step ((st 0x12345678 0x9ABCDEF0).withFetchWord 32 0x022081B3)) 3 = some 0x242D2080 := by decide
theorem test_mul_corner : left (exec (.mul 3 1 2) (st 0x80000000 0xFFFFFFFF)) 3 = some 0x80000000 := by decide
theorem test_mulh : left (step ((st 0x12345678 0x9ABCDEF0).withFetchWord 32 0x022091B3)) 3 = some 0xF8CC93D6 := by decide
theorem test_mulh_corner : left (exec (.mulh 3 1 2) (st 0x80000000 0x80000000)) 3 = some 0x40000000 := by decide
theorem test_mulhsu : left (step ((st 0xFFFFFFFF 0x00000001).withFetchWord 32 0x0220A1B3)) 3 = some 0xFFFFFFFF := by decide
theorem test_mulhsu_corner : left (exec (.mulhsu 3 1 2) (st 0x00000001 0xFFFFFFFF)) 3 = some 0x00000000 := by decide
theorem test_mulhu : left (step ((st 0xFFFFFFFF 0xFFFFFFFF).withFetchWord 32 0x0220B1B3)) 3 = some 0xFFFFFFFE := by decide
theorem test_mulhu_corner : left (exec (.mulhu 3 1 2) (st 0x80000000 0xFFFFFFFF)) 3 = some 0x7FFFFFFF := by decide

/-! Divider: values of 95_test_vectors.md sections 2.2 and 2.3. -/

theorem test_div : left (step ((st 0xFFFFFFEC 0x00000003).withFetchWord 32 0x0220C1B3)) 3 = some 0xFFFFFFFA := by decide
theorem test_div_corner : left (exec (.div 3 1 2) (st 0x80000000 0xFFFFFFFF)) 3 = some 0x80000000 := by decide
theorem test_divu : left (step ((st 0xFFFFFFEC 0x00000003).withFetchWord 32 0x0220D1B3)) 3 = some 0x5555554E := by decide
theorem test_divu_corner : left (exec (.divu 3 1 2) (st 0x00000014 0x00000000)) 3 = some 0xFFFFFFFF := by decide
theorem test_rem : left (step ((st 0xFFFFFFEC 0x00000003).withFetchWord 32 0x0220E1B3)) 3 = some 0xFFFFFFFE := by decide
theorem test_rem_corner : left (exec (.rem 3 1 2) (st 0x00000014 0xFFFFFFFD)) 3 = some 0x00000002 := by decide
theorem test_remu : left (step ((st 0x80000000 0xFFFFFFFF).withFetchWord 32 0x0220F1B3)) 3 = some 0x80000000 := by decide
theorem test_remu_corner : left (exec (.remu 3 1 2) (st 0x00000014 0x00000000)) 3 = some 0x00000014 := by decide

/-! The zero register and equal registers (sections 2.4 and 2.5). -/

theorem test_zero_destination : returned (exec (.add 0 1 2) (st 0x32 0x14)) = some none ∧
    (nextOr State.reset (exec (.add 0 1 2) (st 0x32 0x14))).regs = (st 0x32 0x14).regs := by decide
theorem test_zero_source : left (exec (.sub 3 0 1) (st 0x32 0x14)) 3 = some 0xFFFFFFCE := by decide
theorem test_same_register : left (exec (.sll 1 1 1) (st 0x21 0)) 1 = some 0x00000042 := by decide
theorem test_returned_word : returned (exec (.sub 2 1 2) (st 0x32 0x14)) = some (some 0x0000001E) := by decide

/-! Immediates no word carries (section 2.3), and non-standard descriptors (section 2.6). -/

theorem test_wide_immediate : left (exec (.addi 5 1 0x9ABCDEF0) (st 0x12345678 0)) 5 = some 0xACF13568 := by decide
theorem test_shift_immediate_reduced : left (exec (.srai 5 1 0x0000041F) (st 0x80000000 0)) 5 = some 0xFFFFFFFF := by
  decide
theorem test_nonstandard_admitted :
    left (step (setup .refuse true (feed (st 0 0) [.descriptor ⟨.sub, 3, 1, 1, .I⟩]))) 3 = some 0xFFFFFFFF ∧
    left (step (setup .refuse true (feed (st 0xFFFFFFEC 0) [.descriptor ⟨.rem, 3, 1, 3, .I⟩]))) 3 = some 0xFFFFFFFE :=
  by decide
theorem test_nonstandard_refused : refusal (step (feed (st 0 0) [.descriptor ⟨.sub, 3, 1, 1, .I⟩])) =
    some (.nonstandardImmediate .sub) := by decide

/-! The stages: the trace of section 2.8, the isolation of section 2.9, the violations of section 2.10. -/

/-- The start of section 2.8. -/
def trace0 : State :=
  feed { st 0x32 0x14 with regs := writeReg (st 0x32 0x14).regs 3 0xAAAAAAAA }
    [.decode ⟨.sub, 3, 1, 2, .R⟩, .execute, .writeBack]

def trace1 : State := nextOr State.reset (step trace0)
def trace2 : State := nextOr State.reset (step trace1)
def trace3 : State := nextOr State.reset (step trace2)

theorem test_trace_decode : trace1.inflight = some ⟨.sub, 3, 0x32, 0x14, none, .decoded⟩ ∧
    trace1.read 3 = 0xAAAAAAAA := by decide
theorem test_trace_execute : trace2.inflight = some ⟨.sub, 3, 0x32, 0x14, some 0x1E, .executed⟩ ∧
    trace2.read 3 = 0xAAAAAAAA := by decide
theorem test_trace_write_back : trace3.inflight = none ∧ trace3.read 3 = 0x1E ∧ trace3.output = some (some 0x1E) := by
  decide

/-- The harness of section 2.9 writes x1 and x2 after decode. -/
theorem test_snapshot_isolation : (nextOr State.reset
    (step { trace1 with regs := writeReg (writeReg trace1.regs 1 0xFFFFFFFF) 2 0 })).inflight =
    some ⟨.sub, 3, 0x32, 0x14, some 0x1E, .executed⟩ := by decide

theorem test_write_back_before_execute : refusal (step (feed trace1 [.writeBack])) = some (.stageOrder .writeBack) := by
  decide
theorem test_execute_twice : refusal (step (feed trace2 [.execute])) = some (.stageOrder .execute) := by decide
theorem test_write_back_twice : refusal (step (feed trace3 [.writeBack])) = some (.stageOrder .writeBack) := by decide
theorem test_execute_no_record : faulted (step (setup .fault false (feed trace0 [.execute]))) =
    some (.stageOrder .execute) := by decide
theorem test_second_decode : refusal (step (feed trace1 [.decode ⟨.add, 3, 1, 2, .R⟩])) = some .recordInFlight := by
  decide
theorem test_index_out_of_range : refusal (step (feed trace3 [.descriptor ⟨.add, 3, 1, 0x20, .R⟩])) =
    some (.registerIndexOutOfRange 0x20) := by decide
theorem test_lw_refused : refusal (step (feed trace3 [.word 0x0000A183])) = some (.notInCore 0x0000A183) := by decide

/-! Pseudo-instructions and assembler text (R65, R66). -/

theorem test_neg : left (exec (expand (.neg 3 1)) (st 1 0)) 3 = some 0xFFFFFFFF := by decide
theorem test_asm_register : asm (.sub 3 1 2) = "sub x3, x1, x2" := by decide
theorem test_asm_immediate : asm (.addi 1 2 0xFFFFFFFF) = "addi x1, x2, -1" := by decide
theorem test_abi_names : abiNames.length = 32 ∧ abiNames[10]? = some "a0" ∧ abiNames[31]? = some "t6" := by decide

/-! Witnesses: states and operands that meet the hypotheses of each statement, for each clause, at boundary values. -/

theorem witness_AddAndAddiSumModulo : (st 0x7FFFFFFF 1).inflight = none := rfl
theorem witness_SubDifferenceModulo : (st 0 1).inflight = none := rfl
theorem witness_AndAndAndiBitwise : (st 0x12345678 0x9ABCDEF0).inflight = none := rfl
theorem witness_OrAndOriBitwise : (st 0x12345678 0x9ABCDEF0).inflight = none := rfl
theorem witness_XorAndXoriBitwise : (st 0x12345678 0x9ABCDEF0).inflight = none := rfl
theorem witness_SllAndSlliShiftLeft : (st 0xDEADBEEF 0x20).inflight = none := rfl
theorem witness_SrlAndSrliShiftRightLogical : (st 0xDEADBEEF 0x20).inflight = none := rfl
theorem witness_SraAndSraiShiftRightArithmetic : (st 0xDEADBEEF 0x20).inflight = none := rfl
theorem witness_SltAndSltiSignedLess : (st 0x80000000 1).inflight = none := rfl
theorem witness_SltuAndSltiuUnsignedLess : (st 0x80000000 1).inflight = none := rfl
theorem witness_MulLowHalfOfProduct : (st 0x80000000 0xFFFFFFFF).inflight = none := rfl
theorem witness_MulhHighHalfSigned : (st 0x80000000 0x80000000).inflight = none := rfl
theorem witness_MulhsuHighHalfSignedUnsigned : (st 0x80000000 0xFFFFFFFF).inflight = none := rfl
theorem witness_MulhuHighHalfUnsigned : (st 0xFFFFFFFF 0xFFFFFFFF).inflight = none := rfl
theorem witness_DivSignedQuotient : (st 0x80000000 0xFFFFFFFF).inflight = none := rfl
theorem witness_DivuUnsignedQuotient : (st 0x14 0).inflight = none := rfl
theorem witness_RemSignedRemainder : (st 0x80000000 0xFFFFFFFF).inflight = none := rfl
theorem witness_RemuUnsignedRemainder : (st 0x14 0).inflight = none := rfl

theorem witness_ShiftDependsOnLowFiveBits : (Op.sra = .sll ∨ Op.sra = .srl ∨ Op.sra = .sra) ∧
    (0xFFFFFFE4#32).extractLsb' 0 5 = (4#32).extractLsb' 0 5 := by decide
theorem witness_DivisionLaws : (0xFFFFFFFF#32 ≠ 0#32 ∧ ¬(0x7FFFFFFF#32 = 0x80000000#32 ∧ 0xFFFFFFFF#32 = 0xFFFFFFFF#32)) ∧
    (1#32 ≠ 0#32 ∧ ¬(0x80000000#32 = 0x80000000#32 ∧ 1#32 = 0xFFFFFFFF#32)) := by decide

/-- The descriptors of the witnesses: type R with the last register index, type I of a standard operation. -/
def dR : Descriptor := ⟨.remu, 3, 1, 31, .R⟩
def dI : Descriptor := ⟨.add, 3, 1, 0xFFFFFFFF, .I⟩
def dNon : Descriptor := ⟨.sub, 3, 1, 1, .I⟩
def dZero : Descriptor := ⟨.div, 0, 1, 2, .R⟩

theorem witness_admitted_R : Admitted State.reset.params dR := ⟨by decide, by decide⟩
theorem witness_admitted_I : Admitted State.reset.params dI := ⟨by decide, by decide⟩

theorem witness_DescriptorEffectAsAWhole : (feed (st 5 7) [.descriptor dR]).pending = .descriptor dR :: [] ∧
    (feed (st 5 7) [.descriptor dR]).inflight = none ∧ Admitted (feed (st 5 7) [.descriptor dR]).params dR :=
  ⟨rfl, rfl, witness_admitted_R⟩
theorem witness_DescriptorEffectAsAWhole_I : (feed (st 5 7) [.descriptor dI]).pending = .descriptor dI :: [] ∧
    (feed (st 5 7) [.descriptor dI]).inflight = none ∧ Admitted (feed (st 5 7) [.descriptor dI]).params dI :=
  ⟨rfl, rfl, witness_admitted_I⟩
theorem witness_NonstandardImmediateByParameter :
    Op.sub ∈ [Op.sub, .mul, .mulh, .mulhsu, .mulhu, .div, .divu, .rem, .remu] ∧
    (setup .refuse true (feed (st 0 0) [.descriptor dNon])).pending = .descriptor ⟨.sub, 3, 1, 1, .I⟩ :: [] ∧
    (setup .refuse true (feed (st 0 0) [.descriptor dNon])).params.admitNonstandardI = true ∧
    (setup .refuse true (feed (st 0 0) [.descriptor dNon])).inflight = none ∧
    (feed (st 0 0) [.descriptor dNon]).pending = .descriptor ⟨.sub, 3, 1, 1, .I⟩ :: [] ∧
    (feed (st 0 0) [.descriptor dNon]).params.admitNonstandardI = false := by decide
theorem witness_BoundaryRefusesByName :
    (feed trace1 [.decode ⟨.add, 3, 1, 32, .R⟩]).pending = .decode ⟨.add, 3, 1, 32, .R⟩ :: [] ∧ 31 < (32#32).toNat ∧
    (feed (st 0 0) [.descriptor dNon]).pending = .descriptor dNon :: [] ∧ dNon.ty = .I ∧
    dNon.op ∉ standardImmediateOps ∧ (feed (st 0 0) [.descriptor dNon]).params.admitNonstandardI = false := by decide
theorem witness_ZeroRegisterSink : (feed (st 0x32 0) [.descriptor dZero]).pending = .descriptor dZero :: [] ∧
    (feed (st 0x32 0) [.descriptor dZero]).inflight = none ∧
    Admitted (feed (st 0x32 0) [.descriptor dZero]).params dZero ∧ dZero.rd = 0#5 :=
  ⟨rfl, rfl, ⟨by decide, by decide⟩, rfl⟩
theorem witness_SlotZeroStaysZero : trace2.regs[0] = 0#32 ∧ step trace2 = .next trace3 := ⟨by decide, rfl⟩
theorem witness_RegisterReadAndWrite : (31#5 ≠ 0#5) ∧ (1#5 ≠ 31#5) := by decide
theorem witness_DecodeStageSnapshotsOperands : trace0.pending = .decode ⟨.sub, 3, 1, 2, .R⟩ :: [.execute, .writeBack] ∧
    trace0.inflight = none ∧ Admitted trace0.params ⟨.sub, 3, 1, 2, .R⟩ ∧
    (feed (st 5 7) [.decode dI]).pending = .decode dI :: [] ∧ (feed (st 5 7) [.decode dI]).inflight = none ∧
    Admitted (feed (st 5 7) [.decode dI]).params dI :=
  ⟨rfl, rfl, ⟨by decide, by decide⟩, rfl, rfl, witness_admitted_I⟩
theorem witness_ExecuteStageFillsResult : trace1.pending = .execute :: [.writeBack] ∧
    trace1.inflight = some ⟨.sub, 3, 0x32, 0x14, none, .decoded⟩ := by decide
theorem witness_WriteBackStagePublishes : trace2.pending = .writeBack :: [] ∧
    trace2.inflight = some ⟨.sub, 3, 0x32, 0x14, some 0x1E, .executed⟩ := by decide
/-- rd = 0 at write_back. -/
def trace2zero : State := { trace2 with inflight := some ⟨.add, 0, 0x32, 0x14, some 0x46, .executed⟩ }
theorem witness_WriteBackStagePublishes_zero : trace2zero.pending = .writeBack :: [] ∧
    trace2zero.inflight = some ⟨.add, 0, 0x32, 0x14, some 0x46, .executed⟩ := by decide
theorem witness_WriteBackContract : trace2.pending = .writeBack :: [] ∧ step trace2 = .next trace3 := ⟨by decide, rfl⟩
theorem witness_SnapshotIsolation : trace0.pending = .decode ⟨.sub, 3, 1, 2, .R⟩ :: .execute :: .writeBack :: [] ∧
    trace0.inflight = none ∧ Admitted trace0.params ⟨.sub, 3, 1, 2, .R⟩ := ⟨rfl, rfl, by decide, by decide⟩
theorem witness_ExecuteIsPure : trace1.pending = .execute :: [.writeBack] ∧
    ({ trace1 with regs := State.reset.regs } : State).pending = .execute :: [.writeBack] ∧
    trace1.inflight = some ⟨.sub, 3, 0x32, 0x14, none, .decoded⟩ ∧
    ({ trace1 with regs := State.reset.regs } : State).inflight = some ⟨.sub, 3, 0x32, 0x14, none, .decoded⟩ := by decide
theorem witness_ResultDependsOnOperandsAlone : (st 5 7).inflight = none ∧ trace3.inflight = none ∧
    operandA (Instr.addi 4 0 9).descriptor (st 5 7).regs = operandA (Instr.addi 4 0 9).descriptor trace3.regs ∧
    operandB (Instr.addi 4 0 9).descriptor (st 5 7).regs = operandB (Instr.addi 4 0 9).descriptor trace3.regs := by
  decide
theorem witness_StageOrderViolationStops : (feed trace0 [.execute]).pending = .execute :: [] ∧
    (feed trace0 [.execute]).stage ≠ some .decoded ∧ (feed trace2 [.execute]).pending = .execute :: [] ∧
    (feed trace2 [.execute]).stage ≠ some .decoded ∧ (feed trace1 [.writeBack]).pending = .writeBack :: [] ∧
    (feed trace1 [.writeBack]).stage ≠ some .executed := by decide
theorem witness_OneRecordInFlight : (feed trace1 [.decode dR]).inflight = some ⟨.sub, 3, 0x32, 0x14, none, .decoded⟩ ∧
    Admitted (feed trace1 [.decode dR]).params dR ∧ (feed trace1 [.decode dR]).pending = .decode dR :: [] :=
  ⟨by decide, ⟨by decide, by decide⟩, rfl⟩
theorem witness_StagesMoveForwardOnly : (step trace0 = .next trace1 ∧ trace0.inflight = none) ∧
    (step trace1 = .next trace2 ∧ trace1.pending ≠ []) ∧ (step trace2 = .next trace3 ∧ trace2.pending ≠ []) ∧
    (step trace3 = .next trace3 ∧ trace3.pending = []) :=
  ⟨⟨rfl, rfl⟩, ⟨rfl, by decide⟩, ⟨rfl, by decide⟩, rfl, rfl⟩
theorem witness_EffectVisibleOnlyAtWriteBack : step trace0 = .next trace1 ∧ step trace1 = .next trace2 ∧
    step trace2 = .next trace3 ∧ trace2.pending = .writeBack :: [] ∧
    trace2.inflight = some ⟨.sub, 3, 0x32, 0x14, some 0x1E, .executed⟩ := ⟨rfl, rfl, rfl, by decide, by decide⟩
theorem witness_ThreeStagesAreOneInstruction :
    trace0.pending = .decode ⟨.sub, 3, 1, 2, .R⟩ :: .execute :: .writeBack :: [] := rfl
theorem witness_SequenceAppliesEffectsInOrder :
    (feed (st 5 7) [.descriptor dR, .descriptor dI, .descriptor dZero]).inflight = none ∧
    (∀ d ∈ [dR, dI, dZero], Admitted (feed (st 5 7) [.descriptor dR, .descriptor dI, .descriptor dZero]).params d) ∧
    (feed (st 5 7) [.descriptor dR, .descriptor dI, .descriptor dZero]).pending =
      [dR, dI, dZero].map Input.descriptor := by
  refine ⟨rfl, ?_, rfl⟩
  unfold Admitted
  decide
theorem witness_NextInstructionReadsTheResult : (st 5 7).inflight = none := rfl
theorem witness_ContractKeepingRunNeverStops : trace0.inv = true ∧
    keepsContract trace0.params trace0.stage trace0.pending = true := by decide
theorem witness_ContractKeepingRunNeverStops_word :
    (feed (st 5 7) [.word 0x002081B3, .descriptor dI, .decode dR, .execute, .writeBack]).inv = true ∧
    keepsContract State.reset.params none [.word 0x002081B3, .descriptor dI, .decode dR, .execute, .writeBack] = true := by
  decide
theorem witness_NoInstructionFaults : step (setup .fault false (feed trace1 [.writeBack])) =
    .fault (.stageOrder .writeBack) := rfl
theorem witness_StepKeepsInvariant : trace1.inv = true ∧ step trace1 = .next trace2 := ⟨by decide, rfl⟩
theorem witness_InputsInOrderAndParametersFixed : step trace0 = .next trace1 := rfl
theorem witness_IdleCoreHoldsItsState : State.reset.pending = [] := rfl
theorem witness_StepRunsDecodedInstruction :
    (feed (st 5 7) [.word 0x002081B3]).pending = .word 0x002081B3 :: [] ∧
    decodeWord 0x002081B3 = .ok (.add 3 1 2) ∧
    (feed (st 5 7) [.descriptor (Instr.add 3 1 2).descriptor]).pending =
      .descriptor (Instr.add 3 1 2).descriptor :: [] := by decide
theorem witness_WordNotInCoreRefused : (feed (st 5 7) [.word 0x0000A183]).pending = .word 0x0000A183 :: [] ∧
    ∀ i, decodeWord 0x0000A183 ≠ .ok i :=
  ⟨rfl, fun _ h => by
    have e : decodeWord 0x0000A183 = .error .notInCore := by decide
    rw [e] at h
    cases h⟩
theorem witness_DecodeOfEncode : (Instr.addi 31 0 0xFFFFF800).wf = true ∧ (Instr.srai 0 31 0x1F).wf = true ∧
    (Instr.remu 31 31 31).wf = true := by decide
theorem witness_EncodeOfDecode : decodeWord 0x800F8F93 = .ok (.addi 31 31 0xFFFFF800) := by decide
theorem witness_OpcodeRowsExclusive : (rows[1]'(by decide)).fits 0x402081B3 = true := by decide
theorem witness_ReservedEncodingsNotInCore :
    ((0x0420C1B3#32).extractLsb' 0 7 = 0b0110011#7 ∧
      (0x0420C1B3#32).extractLsb' 25 7 ∉ [0b0000000#7, 0b0100000#7, 0b0000001#7]) ∧
    ((0x402091B3#32).extractLsb' 25 7 = 0b0100000#7 ∧ (0x402091B3#32).extractLsb' 12 3 ∉ [0b000#3, 0b101#3]) ∧
    ((0x40131293#32).extractLsb' 0 7 = 0b0010011#7 ∧ (0x40131293#32).extractLsb' 12 3 = 0b001#3 ∧
      (0x40131293#32).extractLsb' 25 7 ≠ 0b0000000#7) ∧
    ((0x02135293#32).extractLsb' 12 3 = 0b101#3 ∧
      (0x02135293#32).extractLsb' 25 7 ∉ [0b0000000#7, 0b0100000#7]) ∧
    (0x0000A183#32).extractLsb' 0 7 ∉ [0b0110011#7, 0b0010011#7] := by decide
theorem witness_DecodedWordFields : decodeWord 0x4020D1B3 = .ok (.sra 3 1 2) ∧
    decodeWord 0x41F35293 = .ok (.srai 5 6 31) ∧ decodeWord 0x80036293 = .ok (.ori 5 6 0xFFFFF800) := by decide
theorem witness_PseudoInstructionEffects : (st 0x80000000 1).inflight = none := rfl

end Sys2Proof.Tests
end

section
/-! The invariant is kept by every step, and a run that keeps the caller's contract never stops. -/

namespace Sys2Proof.Machine

/-- The invariant as a proposition (10_state.md R14, R22 to R24). -/
theorem State.inv_iff (s : State) :
    s.inv = true ↔ s.regs[0] = 0#32 ∧ ∀ r, s.inflight = some r → recordOk r = true := by
  simp [State.inv, Option.all_eq_true]

theorem recordOk_snapshot (d : Descriptor) (f : RegFile) : recordOk (snapshot d f) = true := by
  simp [recordOk]

theorem recordOk_executed (r : Record) : recordOk r.executed = true := by
  simp [recordOk]

/-- A record that execute has left holds the word of its operation (R71). -/
theorem result_of_recordOk_executed {r : Record} (h : recordOk r = true) (hs : r.stage = .executed) :
    r.result = some (opFn r.op r.a r.b) := by
  simpa [recordOk, hs] using h

theorem inv_retire {s : State} (h : s.regs[0] = 0#32) (rd : RegIdx) (v : Word) : (retire rd v s).inv = true := by
  simp [State.inv_iff, h]

/-- Every step that goes on keeps the invariant. -/
theorem inv_of_step {s t : State} (hinv : s.inv = true) (h : step s = .next t) : t.inv = true := by
  obtain ⟨hslot, -⟩ := s.inv_iff.mp hinv
  cases step_cases h with
  | idle _ ht => exact ht ▸ hinv
  | instruction _ rest _ _ _ _ _ ht => exact ht ▸ inv_retire (s := { s with pending := rest }) hslot _ _
  | decode _ _ _ _ _ ht => subst ht; simp [State.inv_iff, hslot, recordOk_snapshot]
  | execute _ _ _ _ _ ht => subst ht; simp [State.inv_iff, hslot, recordOk_executed]
  | writeBack rest _ _ _ _ _ _ ht => exact ht ▸ inv_retire (s := { s with pending := rest }) hslot _ _

/-- Every step that goes on takes the head input and leaves the launch parameters (R9, R41). -/
theorem pending_params_of_step {s t : State} (h : step s = .next t) :
    t.pending = s.pending.tail ∧ t.params = s.params := by
  cases step_cases h with
  | idle hp ht => simp [ht, hp]
  | instruction _ _ _ hp _ _ _ ht => simp [ht, hp]
  | decode _ _ hp _ _ ht => simp [ht, hp]
  | execute _ _ hp _ _ ht => simp [ht, hp]
  | writeBack _ _ _ hp _ _ _ ht => simp [ht, hp]

theorem State.stage_eq_none {s : State} : s.stage = none ↔ s.inflight = none := by
  simp [State.stage]

theorem State.stage_eq_some {s : State} {x : Stage} :
    s.stage = some x ↔ ∃ r, s.inflight = some r ∧ r.stage = x := by
  simp [State.stage]

@[simp] theorem stage_retire (rd : RegIdx) (v : Word) (s : State) : (retire rd v s).stage = none := by
  simp [State.stage]

section StageAfter
variable {p : Params} {st st' : Option Stage}

theorem stageAfter_word {w : Word} :
    stageAfter p st (.word w) = some st' ↔ st = none ∧ (∃ i, decodeWord w = .ok i) ∧ none = st' := by
  cases h : decodeWord w <;> simp [stageAfter, h, Except.isOk, Except.toBool]

theorem stageAfter_descriptor {d : Descriptor} :
    stageAfter p st (.descriptor d) = some st' ↔ st = none ∧ admission p d = none ∧ none = st' := by
  simp [stageAfter, and_assoc]

theorem stageAfter_decode {d : Descriptor} :
    stageAfter p st (.decode d) = some st' ↔ st = none ∧ admission p d = none ∧ some .decoded = st' := by
  simp [stageAfter, and_assoc]

theorem stageAfter_execute :
    stageAfter p st .execute = some st' ↔ st = some .decoded ∧ some .executed = st' := by
  simp [stageAfter]

theorem stageAfter_writeBack :
    stageAfter p st .writeBack = some st' ↔ st = some .executed ∧ none = st' := by
  simp [stageAfter]

end StageAfter

/-- An input that keeps the caller's contract is served, and leaves the stage the contract says. -/
theorem step_of_stageAfter {s : State} {q : Input} {rest : List Input} {st : Option Stage} (hinv : s.inv = true)
    (hp : s.pending = q :: rest) (hq : stageAfter s.params s.stage q = some st) :
    ∃ t, step s = .next t ∧ t.stage = st := by
  cases q with
  | word w =>
    obtain ⟨hst, ⟨i, hd⟩, rfl⟩ := stageAfter_word.mp hq
    have hi : ({ s with pending := rest } : State).inflight = none := State.stage_eq_none.mp hst
    exact ⟨_, (step_word_ok hp hd).trans (exec_idle hi i), stage_retire _ _ _⟩
  | descriptor d =>
    obtain ⟨hst, ha, rfl⟩ := stageAfter_descriptor.mp hq
    exact ⟨_, step_descriptor_idle hp ha (State.stage_eq_none.mp hst), stage_retire _ _ _⟩
  | decode d =>
    obtain ⟨hst, ha, rfl⟩ := stageAfter_decode.mp hq
    exact ⟨_, step_decode_idle hp ha (State.stage_eq_none.mp hst), rfl⟩
  | execute =>
    obtain ⟨hst, rfl⟩ := stageAfter_execute.mp hq
    obtain ⟨r, hr, hs⟩ := State.stage_eq_some.mp hst
    exact ⟨_, step_execute_decoded hp hr hs, rfl⟩
  | writeBack =>
    obtain ⟨hst, rfl⟩ := stageAfter_writeBack.mp hq
    obtain ⟨r, hr, hs⟩ := State.stage_eq_some.mp hst
    obtain ⟨-, hrec⟩ := s.inv_iff.mp hinv
    have hv := result_of_recordOk_executed (hrec r hr) hs
    exact ⟨_, step_writeBack_executed hp hr hs hv, stage_retire _ _ _⟩

/-- A list that keeps the contract: its head is allowed, and the rest keeps it from the stage the head leaves. -/
theorem keepsContract_cons {p : Params} {st : Option Stage} {q : Input} {rest : List Input} :
    keepsContract p st (q :: rest) = true ↔
      ∃ st', stageAfter p st q = some st' ∧ keepsContract p st' rest = true := by
  cases h : stageAfter p st q <;> simp [keepsContract, h]

/-- The run invariant of `Obligations.ContractKeepingRunNeverStops`: the state's invariant, and waiting inputs that
keep the caller's contract from the stage of the record in flight on. -/
structure InContract (s : State) : Prop where
  inv : s.inv = true
  keeps : keepsContract s.params s.stage s.pending = true

/-- One step within the contract goes on, takes the head input (if any), and stays within the contract. -/
theorem InContract.step {s : State} (h : InContract s) :
    ∃ t, Machine.step s = .next t ∧ InContract t ∧ t.pending = s.pending.tail := by
  match hp : s.pending with
  | [] => exact ⟨s, step_idle hp, h, by simp [hp]⟩
  | q :: rest =>
    obtain ⟨st, hq, hrest⟩ := keepsContract_cons.mp (hp ▸ h.keeps)
    obtain ⟨t, ht, hst⟩ := step_of_stageAfter h.inv hp hq
    obtain ⟨hpend, hpar⟩ := pending_params_of_step ht
    rw [hp, List.tail_cons] at hpend
    exact ⟨t, ht, ⟨inv_of_step h.inv ht, by rwa [hpar, hst, hpend]⟩, hpend⟩

/-- `n` steps within the contract go on, take the first `n` inputs, and stay within the contract. -/
theorem InContract.run {s : State} (h : InContract s) (n : Nat) :
    ∃ t, Machine.run n s = .next t ∧ InContract t ∧ t.pending = s.pending.drop n := by
  induction n generalizing s with
  | zero => exact ⟨s, rfl, h, rfl⟩
  | succ n ih =>
    obtain ⟨u, hu, hc, hpu⟩ := h.step
    obtain ⟨t, ht, hct, hpt⟩ := ih hc
    exact ⟨t, (run_succ_next hu).trans ht, hct, by rw [hpt, hpu, List.drop_tail]⟩

/-- Settles O42, by induction on the number of steps with the invariant `InContract`. -/
theorem contractKeepingRunNeverStops : Obligations.ContractKeepingRunNeverStops := by
  intro s hinv hkeeps
  have hc : InContract s := ⟨hinv, hkeeps⟩
  constructor
  · intro n
    obtain ⟨t, ht, hct, -⟩ := hc.run n
    exact ⟨t, ht, hct.inv⟩
  · obtain ⟨t, ht, -, hpt⟩ := hc.run s.pending.length
    exact ⟨t, ht, by rw [hpt, List.drop_length]⟩

end Sys2Proof.Machine
end

section
/-! The register file of `10_state.md`: slot 0 over a step, registers read and written, and the state after creation. -/

namespace Sys2Proof.Machine

/-- Settles O44: the invariant kept in each case of `step_cases`, by `inv_of_step`. -/
theorem stepKeepsInvariant : Obligations.StepKeepsInvariant :=
  fun _ _ => inv_of_step

/-- Every step that goes on leaves the stored word of slot 0 as it was: only `retire` touches the register file, and it
writes through `writeReg`. -/
theorem slot_zero_of_step {s t : State} (h : step s = .next t) : t.regs[0] = s.regs[0] := by
  cases step_cases h with
  | idle _ ht => rw [ht]
  | instruction _ _ _ _ _ _ _ ht => simp [ht]
  | decode _ _ _ _ _ ht => rw [ht]
  | execute _ _ _ _ _ ht => rw [ht]
  | writeBack _ _ _ _ _ _ _ ht => simp [ht]

/-- Settles O26: the register laws of slot 0, its word at creation, and its word over a step (`slot_zero_of_step`). -/
theorem slotZeroStaysZero : Obligations.SlotZeroStaysZero :=
  ⟨State.read_zero, writeReg_zero, create_slot_zero, fun _ _ hs h => (slot_zero_of_step h).trans hs⟩

/-- Settles O27, from the laws of the register file. -/
theorem registerReadAndWrite : Obligations.RegisterReadAndWrite := fun f _ v =>
  ⟨readReg_zero f, fun _ hj => readReg_of_ne hj f, writeReg_zero f v,
    fun hi => readReg_writeReg_same hi f v, fun _ hj => readReg_writeReg_other hj f v⟩

theorem inv_create (r : ResetRegs) (p : Params) : (State.create r p).inv = true := by
  simp [State.inv_iff]

/-- Settles O45: reset is one of the creations of `inv_create`. -/
theorem creationMeetsInvariant : Obligations.CreationMeetsInvariant :=
  ⟨inv_create, inv_create _ _⟩

/-- After creation register `k + 1` reads entry `k` of RESET_REGS (R34). -/
theorem read_create_succ (r : ResetRegs) (p : Params) (k : Fin 31) :
    (State.create r p).read (BitVec.ofNat 5 (k.val + 1)) = r[k] := by
  have hidx : (BitVec.ofNat 5 (k.val + 1)).toNat = k.val + 1 := by
    rw [BitVec.toNat_ofNat]; omega
  have hne : BitVec.ofNat 5 (k.val + 1) ≠ 0#5 := fun h => by simp [h] at hidx
  simp only [State.read, readReg_of_ne hne, create_regs, hidx]
  rw [Vector.getElem_append_right (by omega) (by omega)]
  simp

/-- Settles O46: the reads of a created file, and reset as the creation from `Config.resetRegs`. -/
theorem createdRegisterFile : Obligations.CreatedRegisterFile :=
  ⟨fun r p => ⟨State.read_zero _, read_create_succ r p, create_inflight r p⟩, Config.resetRegs, rfl⟩

end Sys2Proof.Machine
end

section
/-! The order of effects of `20_memory.md`: when the register file changes, and what a list of descriptors leaves. -/

namespace Sys2Proof.Machine

/-- Settles O47, from the inversion of `step`. -/
theorem inputsInOrderAndParametersFixed : Obligations.InputsInOrderAndParametersFixed :=
  fun _ _ => pending_params_of_step

/-- Settles O38, by the inversion lemma of the stage each input calls; only `retire` writes the register file. -/
theorem effectVisibleOnlyAtWriteBack : Obligations.EffectVisibleOnlyAtWriteBack := by
  intro s t h
  refine ⟨fun d rest hp => ?decode, fun rest hp => ?execute, fun rest r v hp hr hv => ?writeBack⟩
  case decode =>
    rw [step_decode hp] at h
    obtain ⟨-, -, rfl⟩ := decodeStage_next h
    rfl
  case execute =>
    rw [step_execute hp] at h
    obtain ⟨_, -, -, rfl⟩ := executeStage_next h
    rfl
  case writeBack =>
    rw [step_writeBack hp] at h
    obtain ⟨r', v', hr', -, hv', rfl⟩ := writeBackStage_next h
    obtain rfl : r = r' := Option.some.inj (hr.symm.trans hr')
    obtain rfl : v = v' := Option.some.inj (hv.symm.trans hv')
    exact retire_regs _ _ _

/-- A step on an admitted descriptor, with no record in flight, applies its `effect` and leaves none in flight. -/
theorem step_descriptor_effect {s : State} {d : Descriptor} {rest : List Input}
    (hp : s.pending = .descriptor d :: rest) (ha : Admitted s.params d) (hi : s.inflight = none) :
    ∃ t, step s = .next t ∧ t.regs = effect s.regs d ∧ t.inflight = none ∧ t.pending = rest ∧ t.params = s.params :=
  ⟨_, step_descriptor_idle hp ((admission_none_iff _ _).mpr ha) hi,
    retire_regs _ _ _, retire_inflight _ _ _, retire_pending _ _ _, retire_params _ _ _⟩

/-- Settles O40, by induction on the list of descriptors with the state general. -/
theorem sequenceAppliesEffectsInOrder : Obligations.SequenceAppliesEffectsInOrder := by
  intro s ds
  induction ds generalizing s with
  | nil => exact fun hi _ hp => ⟨s, rfl, rfl, hi, hp, rfl⟩
  | cons d ds ih =>
    intro hi had hp
    obtain ⟨hd, hds⟩ := List.forall_mem_cons.mp had
    obtain ⟨u, hstep, huregs, hui, hup, hupar⟩ := step_descriptor_effect hp hd hi
    obtain ⟨t, hrun, htregs, hti, htp, htpar⟩ := ih u hui (hupar ▸ hds) hup
    exact ⟨t, (run_succ_next hstep).trans hrun, by rw [htregs, huregs, List.foldl_cons], hti, htp,
      htpar.trans hupar⟩

end Sys2Proof.Machine
end

section
/-! The binary decoder of `30_encoding.md`: everything it can answer, what its rows share, and the words outside it. -/

namespace Sys2Proof

theorem Row.fits_iff {r : Row} {w : Word} : r.fits w = true ↔ w &&& r.mask = r.pattern := beq_iff_eq

/-- A word agrees with its masked form on every field the mask keeps whole. -/
theorem extract_of_masked {w mask q : Word} (h : w &&& mask = q) {k n : Nat}
    (hm : mask.extractLsb' k n = BitVec.allOnes n) : w.extractLsb' k n = q.extractLsb' k n := by
  rw [← h, BitVec.extractLsb'_and, hm, BitVec.and_allOnes]

/-- What the funct7 and funct3 of a register-register instruction may be (R58). -/
abbrev RegRegCode (f7 : BitVec 7) (f3 : BitVec 3) : Prop :=
  f7 = 0b0000000#7 ∨ f7 = 0b0000001#7 ∨ f7 = 0b0100000#7 ∧ (f3 = 0b000#3 ∨ f3 = 0b101#3)

/-- What the funct7 and funct3 of a shift by an immediate may be (R59). -/
abbrev ShiftCode (f7 : BitVec 7) (f3 : BitVec 3) : Prop :=
  f3 = 0b001#3 ∧ f7 = 0b0000000#7 ∨ f3 = 0b101#3 ∧ (f7 = 0b0000000#7 ∨ f7 = 0b0100000#7)

/-- Everything a word the decoder accepts can be, by format (R54, R55): its code fields, and the descriptor of its
instruction, for whichever operation. -/
inductive DecodeCase (w : Word) (i : Instr) : Prop where
  | regReg (op : Op) (hopcode : w.extractLsb' 0 7 = 0b0110011#7)
      (hcode : RegRegCode (w.extractLsb' 25 7) (w.extractLsb' 12 3))
      (hd : i.descriptor = ⟨op, rdOf w, rs1Of w, zext5 (rs2Of w), .R⟩)
  | imm (op : Op) (hopcode : w.extractLsb' 0 7 = 0b0010011#7)
      (hcode : w.extractLsb' 12 3 ≠ 0b001#3 ∧ w.extractLsb' 12 3 ≠ 0b101#3)
      (hd : i.descriptor = ⟨op, rdOf w, rs1Of w, immOf w, .I⟩)
  | shift (op : Op) (hopcode : w.extractLsb' 0 7 = 0b0010011#7)
      (hcode : ShiftCode (w.extractLsb' 25 7) (w.extractLsb' 12 3))
      (hd : i.descriptor = ⟨op, rdOf w, rs1Of w, shamtOf w, .I⟩)

namespace DecodeCase
variable {w : Word} {i : Instr}

theorem opcode (h : DecodeCase w i) :
    w.extractLsb' 0 7 = 0b0110011#7 ∨ w.extractLsb' 0 7 = 0b0010011#7 := by
  cases h with
  | regReg _ ho => exact .inl ho
  | imm _ ho => exact .inr ho
  | shift _ ho => exact .inr ho

theorem regRegCode (h : DecodeCase w i) (hR : w.extractLsb' 0 7 = 0b0110011#7) :
    RegRegCode (w.extractLsb' 25 7) (w.extractLsb' 12 3) := by
  cases h with
  | regReg _ _ hcode => exact hcode
  | imm _ ho => simp [hR] at ho
  | shift _ ho => simp [hR] at ho

theorem shiftCode (h : DecodeCase w i) (hI : w.extractLsb' 0 7 = 0b0010011#7)
    (h3 : w.extractLsb' 12 3 = 0b001#3 ∨ w.extractLsb' 12 3 = 0b101#3) :
    ShiftCode (w.extractLsb' 25 7) (w.extractLsb' 12 3) := by
  cases h with
  | regReg _ ho => simp [hI] at ho
  | imm _ _ hcode => exact absurd h3 (not_or.mpr hcode)
  | shift _ _ hcode => exact hcode

end DecodeCase

section RowCases
variable {w q : Word} {op : Op}

theorem decodeCase_rowR {f : RegIdx → RegIdx → RegIdx → Instr}
    (hd : ∀ rd rs1 rs2, (f rd rs1 rs2).descriptor = ⟨op, rd, rs1, zext5 rs2, .R⟩)
    (hq : q.extractLsb' 0 7 = 0b0110011#7 ∧ RegRegCode (q.extractLsb' 25 7) (q.extractLsb' 12 3))
    (h : (rowR q f).fits w = true) : DecodeCase w ((rowR q f).build w) := by
  obtain ⟨hopcode, hcode⟩ := hq
  have hw : w &&& 0xFE00707F#32 = q := Row.fits_iff.mp h
  refine .regReg op ((extract_of_masked hw (by decide)).trans hopcode) ?_ (hd _ _ _)
  rw [extract_of_masked hw (by decide), extract_of_masked hw (by decide)]
  exact hcode

theorem decodeCase_rowI {f : RegIdx → RegIdx → Word → Instr}
    (hd : ∀ rd rs1 c, (f rd rs1 c).descriptor = ⟨op, rd, rs1, c, .I⟩)
    (hq : q.extractLsb' 0 7 = 0b0010011#7 ∧ q.extractLsb' 12 3 ≠ 0b001#3 ∧ q.extractLsb' 12 3 ≠ 0b101#3)
    (h : (rowI q f).fits w = true) : DecodeCase w ((rowI q f).build w) := by
  obtain ⟨hopcode, hcode⟩ := hq
  have hw : w &&& 0x0000707F#32 = q := Row.fits_iff.mp h
  refine .imm op ((extract_of_masked hw (by decide)).trans hopcode) ?_ (hd _ _ _)
  rw [extract_of_masked hw (by decide)]
  exact hcode

theorem decodeCase_rowShift {f : RegIdx → RegIdx → Word → Instr}
    (hd : ∀ rd rs1 c, (f rd rs1 c).descriptor = ⟨op, rd, rs1, c, .I⟩)
    (hq : q.extractLsb' 0 7 = 0b0010011#7 ∧ ShiftCode (q.extractLsb' 25 7) (q.extractLsb' 12 3))
    (h : (rowShift q f).fits w = true) : DecodeCase w ((rowShift q f).build w) := by
  obtain ⟨hopcode, hcode⟩ := hq
  have hw : w &&& 0xFE00707F#32 = q := Row.fits_iff.mp h
  refine .shift op ((extract_of_masked hw (by decide)).trans hopcode) ?_ (hd _ _ _)
  rw [extract_of_masked hw (by decide), extract_of_masked hw (by decide)]
  exact hcode

end RowCases

theorem decodeCase_of_rowsBase (w : Word) : ∀ r ∈ rowsBase, r.fits w = true → DecodeCase w (r.build w) := by
  simp only [rowsBase, List.forall_mem_cons]
  refine ⟨?_, ?_, ?_, ?_, ?_, ?_, ?_, ?_, ?_, ?_, by simp⟩ <;>
    exact decodeCase_rowR (fun _ _ _ => rfl) (by decide)

theorem decodeCase_of_rowsM (w : Word) : ∀ r ∈ rowsM, r.fits w = true → DecodeCase w (r.build w) := by
  simp only [rowsM, List.forall_mem_cons]
  refine ⟨?_, ?_, ?_, ?_, ?_, ?_, ?_, ?_, by simp⟩ <;>
    exact decodeCase_rowR (fun _ _ _ => rfl) (by decide)

theorem decodeCase_of_rowsImm (w : Word) : ∀ r ∈ rowsImm, r.fits w = true → DecodeCase w (r.build w) := by
  simp only [rowsImm, List.forall_mem_cons]
  refine ⟨?addi, ?slli, ?slti, ?sltiu, ?xori, ?srli, ?srai, ?ori, ?andi, by simp⟩
  case slli | srli | srai => exact decodeCase_rowShift (fun _ _ _ => rfl) (by decide)
  all_goals exact decodeCase_rowI (fun _ _ _ => rfl) (by decide)

/-- Everything the decoder can do when it accepts a word (R58 to R60). -/
theorem decodeWord_cases {w : Word} {i : Instr} (h : decodeWord w = .ok i) : DecodeCase w i := by
  obtain ⟨r, hr, hfits, rfl⟩ := decodeWord_ok h
  simp only [rows, List.mem_append, or_assoc] at hr
  rcases hr with hr | hr | hr
  · exact decodeCase_of_rowsBase w r hr hfits
  · exact decodeCase_of_rowsM w r hr hfits
  · exact decodeCase_of_rowsImm w r hr hfits

/-- The decoder has the one verdict on a word it does not accept (R61). -/
theorem decodeWord_notInCore {w : Word} (h : ∀ i, decodeWord w ≠ .ok i) : decodeWord w = .error .notInCore := by
  match hd : decodeWord w with
  | .ok i => exact absurd hd (h i)
  | .error .notInCore => rfl

/-- Two rows of the opcode map whose patterns agree under both masks are the same row. -/
theorem rows_patterns_differ : ∀ m n : Fin rows.length,
    rows[m].pattern &&& rows[n].mask = rows[n].pattern &&& rows[m].mask → m = n := by decide

/-- The patterns of two rows that one word fits agree under both masks. -/
theorem Row.patterns_agree {r r' : Row} {w : Word} (h : r.fits w = true) (h' : r'.fits w = true) :
    r.pattern &&& r'.mask = r'.pattern &&& r.mask := by
  rw [← Row.fits_iff.mp h, ← Row.fits_iff.mp h', BitVec.and_assoc, BitVec.and_assoc, BitVec.and_comm r.mask]

/-- Settles O53: a word that fits two rows would make their patterns agree under both masks. -/
theorem opcodeRowsExclusive : Obligations.OpcodeRowsExclusive :=
  ⟨rfl, fun _ m n hm hn => rows_patterns_differ m n (Row.patterns_agree hm hn)⟩

/-- Settles O54: an instruction decoded from a word of one of the five kinds would have the code of its format
(`decodeWord_cases`), which that kind excludes. -/
theorem reservedEncodingsNotInCore : Obligations.ReservedEncodingsNotInCore := by
  intro w
  refine ⟨fun hR h7 => ?funct7, fun hR h7 h3 => ?subOrSra, fun hI h3 h7 => ?slli, fun hI h3 h7 => ?srliOrSrai,
    fun ho => ?opcode⟩ <;> refine decodeWord_notInCore fun i h => ?_
  case funct7 =>
    have hcode := (decodeWord_cases h).regRegCode hR
    simp_all [RegRegCode]
  case subOrSra =>
    have hcode := (decodeWord_cases h).regRegCode hR
    simp_all [RegRegCode]
  case slli =>
    have hcode := (decodeWord_cases h).shiftCode hI (.inl h3)
    simp_all [ShiftCode]
  case srliOrSrai =>
    have hcode := (decodeWord_cases h).shiftCode hI (.inr h3)
    simp_all [ShiftCode]
  case opcode =>
    have hopcode := (decodeWord_cases h).opcode
    simp_all

/-- Settles O55, from the formats of `decodeWord_cases`. -/
theorem decodedWordFields : Obligations.DecodedWordFields := by
  intro w i h
  cases decodeWord_cases h with
  | regReg op hopcode _ hd => simp [hd, hopcode, rdOf, rs1Of, rs2Of, zext5]
  | imm op hopcode hcode hd => simp [hd, hopcode, hcode, rdOf, rs1Of, immOf, sext12]
  | shift op hopcode hcode hd =>
    have h3 : w.extractLsb' 12 3 = 0b001#3 ∨ w.extractLsb' 12 3 = 0b101#3 := hcode.imp And.left And.left
    simp [hd, hopcode, h3, rdOf, rs1Of, shamtOf, zext5]

end Sys2Proof
end

section
/-! Instructions of `30_encoding.md` at the boundary and as they run: refusals by name, the two readings of a shift
immediate, and the pseudo-instructions. -/

namespace Sys2Proof.Machine

/-- Settles O50, from the decoder's one verdict. -/
theorem wordNotInCoreRefused : Obligations.WordNotInCoreRefused := fun _ _ _ hp h =>
  ⟨decodeWord_notInCore h, step_word_error hp (decodeWord_notInCore h)⟩

theorem standardImmediate_iff (op : Op) : standardImmediate op = true ↔ op ∈ standardImmediateOps := by
  cases op <;> decide

/-- The boundary refuses a type R descriptor whose c is no register index (R49, U3). -/
theorem admission_index_out_of_range {d : Descriptor} (ht : d.ty = .R) (hc : 31 < d.c.toNat) (p : Params) :
    admission p d = some (.registerIndexOutOfRange d.c) := by
  simp [admission, ht, hc]

/-- The boundary refuses a non-standard register-immediate descriptor while the parameter is false (R84, D3). -/
theorem admission_nonstandard {d : Descriptor} {p : Params} (ht : d.ty = .I) (ho : d.op ∉ standardImmediateOps)
    (hp : p.admitNonstandardI = false) : admission p d = some (.nonstandardImmediate d.op) := by
  simp [admission, ht, hp, standardImmediate_iff, ho]

theorem decodeStage_refused {d : Descriptor} {s : State} {why : Refusal} (ha : admission s.params d = some why) :
    decodeStage d s = .refused why := by
  simp [decodeStage, ha]

/-- A step on what the boundary refuses, presented as a whole or by a decode call, whatever is in flight. -/
theorem step_refused {s : State} {d : Descriptor} {rest : List Input} {why : Refusal}
    (hp : s.pending = .descriptor d :: rest ∨ s.pending = .decode d :: rest)
    (ha : admission s.params d = some why) : step s = .refused why := by
  rcases hp with hp | hp
  · rw [step_descriptor hp]; exact runDescriptor_refused (s := { s with pending := rest }) ha
  · rw [step_decode hp]; exact decodeStage_refused (s := { s with pending := rest }) ha

/-- Settles O24: the refusal `admission` names is the refusal of the step. -/
theorem boundaryRefusesByName : Obligations.BoundaryRefusesByName := fun _ _ _ hp =>
  ⟨fun ht hc => step_refused hp (admission_index_out_of_range ht hc _),
    fun ht ho hn => step_refused hp (admission_nonstandard ht ho hn)⟩

/-- The amount of a shift is the low five bits of its second operand (R94 to R100). -/
theorem shiftAmount_eq (b : Word) : shiftAmount b = (b.extractLsb' 0 5).toNat := by
  simp [shiftAmount]

/-- A shift depends on its second operand through the amount alone (R100). -/
theorem opFn_shift_congr {op : Op} (hop : op = .sll ∨ op = .srl ∨ op = .sra) {b b' : Word}
    (h : shiftAmount b = shiftAmount b') (a : Word) : opFn op a b = opFn op a b' := by
  rcases hop with rfl | rfl | rfl <;> simp [opFn, sllOp, srlOp, sraOp, h]

/-- Two immediates on which a standard operation agrees give the same outcome in every state, one with a record in
flight included. -/
theorem runDescriptor_regImm_congr {op : Op} (hop : standardImmediate op = true) {c c' : Word}
    (h : ∀ a, opFn op a c = opFn op a c') (rd rs1 : RegIdx) (s : State) :
    runDescriptor (regImm op rd rs1 c) s = runDescriptor (regImm op rd rs1 c') s := by
  match hi : s.inflight with
  | none => rw [run_regImm hi hop, run_regImm hi hop, h]
  | some r => rw [runDescriptor_busy (admission_regImm hop _ _ _ _) hi,
      runDescriptor_busy (admission_regImm hop _ _ _ _) hi]

/-- The three immediate shifts depend on their immediate through the amount alone (R100). -/
theorem exec_shiftImm_congr {c c' : Word} (h : shiftAmount c = shiftAmount c') (rd rs1 : RegIdx) (s : State) :
    exec (.slli rd rs1 c) s = exec (.slli rd rs1 c') s ∧ exec (.srli rd rs1 c) s = exec (.srli rd rs1 c') s ∧
      exec (.srai rd rs1 c) s = exec (.srai rd rs1 c') s :=
  ⟨runDescriptor_regImm_congr rfl (opFn_shift_congr (.inl rfl) h) rd rs1 s,
    runDescriptor_regImm_congr rfl (opFn_shift_congr (.inr (.inl rfl)) h) rd rs1 s,
    runDescriptor_regImm_congr rfl (opFn_shift_congr (.inr (.inr rfl)) h) rd rs1 s⟩

/-- The shift field of a word and its sign-extended immediate field have the same low five bits (R57). -/
theorem shiftAmount_shamtOf (w : Word) : shiftAmount (shamtOf w) = shiftAmount (immOf w) := by
  rw [shiftAmount_eq, shiftAmount_eq]
  congr 1
  ext k hk
  have h12 : k < 12 := by omega
  have h32 : k < 32 := by omega
  simp [shamtOf, immOf, zext5, sext12, BitVec.getElem_signExtend, hk, h12, h32]

/-- Settles O56: the two readings have the same shift amount. -/
theorem shiftImmediateReadingsAgree : Obligations.ShiftImmediateReadingsAgree := fun s rd rs1 w =>
  exec_shiftImm_congr (shiftAmount_shamtOf w) rd rs1 s

/-- Settles O58: each expansion completes by its instruction's rule, and its operation at the fixed operand (x0 or the
immediate) is the function of the table. -/
theorem pseudoInstructionEffects : Obligations.PseudoInstructionEffects := by
  intro s rd rs imm hi
  refine ⟨⟨_, exec_idle hi _, ?nopRegs, ?nopOutput⟩, completes_regImm hi rfl rfl ?mv, completes_regImm hi rfl rfl ?li,
    completes_regImm hi rfl rfl ?not, completes_regReg hi rfl ?neg, completes_regImm hi rfl rfl ?seqz,
    completes_regReg hi rfl ?snez, completes_regReg hi rfl ?sltz, completes_regReg hi rfl ?sgtz⟩
  case nopRegs | nopOutput => simp [expand, Instr.descriptor]
  case mv => simp [opFn, addOp_eq]
  case li => simp [opFn, addOp_eq, sext12]
  case not => exact BitVec.xor_allOnes
  case neg => simp [opFn, subOp_eq]
  case seqz => simp [opFn, sltuOp_eq, ← BitVec.toNat_inj]
  case snez => simp [opFn, sltuOp_eq, ← BitVec.toNat_inj, Nat.pos_iff_ne_zero]
  case sltz => simp [opFn, sltOp_eq]
  case sgtz => simp [opFn, sltOp_eq]

end Sys2Proof.Machine
end

section
/-! The three stage calls of `40_pipeline.md`, one step each: what each call leaves, what the result of a record depends
on, and a call out of order. -/

namespace Sys2Proof.Machine

/-- Settles O28: the record decode puts in flight is the `snapshot` of its descriptor. -/
theorem decodeStageSnapshotsOperands : Obligations.DecodeStageSnapshotsOperands := by
  intro s d rest hp hi ha
  have hstep := step_decode_idle hp ((admission_none_iff _ _).mpr ha) hi
  refine ⟨_, hstep, rfl, rfl, rfl, fun hR => ?regReg, fun hI => ?regImm, rfl⟩
  case regReg => simp [operandB, hR, State.read]
  case regImm => simp [operandB, hI]

/-- Settles O29: the state execute leaves is the one of `Record.executed`. -/
theorem executeStageFillsResult : Obligations.ExecuteStageFillsResult :=
  fun _ _ _ hp hr hs => step_execute_decoded hp hr hs

/-- Settles O30: write_back leaves what `retire` gives. -/
theorem writeBackStagePublishes : Obligations.WriteBackStagePublishes :=
  fun _ _ _ _ hp hr hs hv => ⟨_, step_writeBack_executed hp hr hs hv, retires_retire _ _ _⟩

/-- What rd reads once an instruction has retired (R73, R78). -/
theorem read_retire (rd : RegIdx) (v : Word) (s : State) :
    (retire rd v s).read rd = if rd = 0#5 then 0#32 else v := by
  split
  next h => rw [h, State.read_zero]
  next h => exact read_retire_same s rd v h

/-- Settles O31, by the inversion of write_back. -/
theorem writeBackContract : Obligations.WriteBackContract := by
  intro s t rest hp h
  rw [step_writeBack hp] at h
  obtain ⟨r, v, hr, -, -, rfl⟩ := writeBackStage_next h
  refine ⟨r, hr, ?_, fun i hi => read_retire_other _ _ _ hi⟩
  by_cases hrd : r.rd = 0#5
  · exact .inr ⟨hrd, by simp [hrd], by simp [hrd]⟩
  · exact .inl ⟨hrd, by simp [read_retire, hrd]⟩

/-- Settles O32: execute and write_back read the record alone, and the record was built from the register file decode
saw. -/
theorem snapshotIsolation : Obligations.SnapshotIsolation := by
  intro s d rest f g hp hi ha
  have hdecode := step_decode_idle hp ((admission_none_iff _ _).mpr ha) hi
  refine ⟨_, _, _, hdecode, step_execute_decoded rfl rfl (snapshot_stage _ _),
    step_writeBack_executed rfl rfl (executed_stage _) (executed_result _), rfl, ?_⟩
  exact retires_retire _ _ { s with pending := rest, regs := g }

/-- Settles O33: the result execute fills in is `opFn` of the three fields the two records share. -/
theorem executeIsPure : Obligations.ExecuteIsPure := by
  intro s s' r r' rest rest' hp hp' hr hr' hs hs' hop ha hb
  refine ⟨_, _, opFn r.op r.a r.b, step_execute_decoded hp hr hs, step_execute_decoded hp' hr' hs', rfl, ?_⟩
  rw [hop, ha, hb]
  rfl

theorem stageViolation_eq (call : StageCall) (s : State) :
    stageViolation call s =
      if s.params.stageViolation = .refuse then .refused (.stageOrder call) else .fault (.stageOrder call) := by
  cases h : s.params.stageViolation <;> simp [stageViolation, h]

/-- An execute call in any stage but Decoded (R77). -/
theorem executeStage_outOfOrder {s : State} (h : s.stage ≠ some .decoded) :
    executeStage s = stageViolation .execute s := by
  match hr : s.inflight with
  | none => simp [executeStage, hr]
  | some r =>
    have hs : r.stage ≠ .decoded := fun hs => h (State.stage_eq_some.mpr ⟨r, hr, hs⟩)
    simp [executeStage, hr, hs]

/-- A write_back call in any stage but Executed (R77). -/
theorem writeBackStage_outOfOrder {s : State} (h : s.stage ≠ some .executed) :
    writeBackStage s = stageViolation .writeBack s := by
  match hr : s.inflight with
  | none => simp [writeBackStage, hr]
  | some r =>
    have hs : r.stage ≠ .executed := fun hs => h (State.stage_eq_some.mpr ⟨r, hr, hs⟩)
    simp [writeBackStage, hr, hs]

/-- Settles O35: both calls answer `stageViolation`. -/
theorem stageOrderViolationStops : Obligations.StageOrderViolationStops := by
  intro s rest
  refine ⟨fun hp h => ?execute, fun hp h => ?writeBack⟩
  case execute =>
    rw [step_execute hp, executeStage_outOfOrder (s := { s with pending := rest }) h, stageViolation_eq]
  case writeBack =>
    rw [step_writeBack hp, writeBackStage_outOfOrder (s := { s with pending := rest }) h, stageViolation_eq]

end Sys2Proof.Machine
end

section
/-! Whole instructions of `40_pipeline.md`: a descriptor run in one step, what its result depends on, one record in
flight, and the agreement of one whole instruction with three stage calls. -/

namespace Sys2Proof.Machine

/-- A step on an admitted descriptor, with no record in flight, retires it with its operation's word on its operands. -/
theorem step_descriptor_retires {s : State} {d : Descriptor} {rest : List Input}
    (hp : s.pending = .descriptor d :: rest) (hi : s.inflight = none) (ha : Admitted s.params d) :
    ∃ t, step s = .next t ∧
      Retires { s with pending := rest } d.rd (opFn d.op (operandA d s.regs) (operandB d s.regs)) t :=
  ⟨_, step_descriptor_idle hp ((admission_none_iff _ _).mpr ha) hi, retires_retire _ _ _⟩

/-- Settles O22: the two operands of the statement are `operandA` and `operandB`. -/
theorem descriptorEffectAsAWhole : Obligations.DescriptorEffectAsAWhole :=
  fun _ _ _ hp hi ha => step_descriptor_retires hp hi ha

/-- The nine operations RV32IM gives no register-immediate form (R51, R84). -/
theorem nonstandard_not_mem : ∀ op ∈ [Op.sub, .mul, .mulh, .mulhsu, .mulhu, .div, .divu, .rem, .remu],
    op ∉ standardImmediateOps := by decide

/-- Settles O23: the parameter admits the descriptor, and without it the boundary refuses the step. -/
theorem nonstandardImmediateByParameter : Obligations.NonstandardImmediateByParameter := by
  intro s op rd rs1 c rest hop hp
  refine ⟨fun hparam hi => ?admitted, fun hparam => ?refused⟩
  case admitted => exact step_descriptor_retires hp hi ⟨nofun, fun _ => .inr hparam⟩
  case refused => exact step_refused (.inl hp) (admission_nonstandard rfl (nonstandard_not_mem op hop) hparam)

/-- Settles O25, from the clause of `Retires` for rd = 0. -/
theorem zeroRegisterSink : Obligations.ZeroRegisterSink := by
  intro s d rest hp hi ha hrd
  obtain ⟨t, hstep, -, hzero, -⟩ := step_descriptor_retires hp hi ha
  obtain ⟨hregs, hout⟩ := hzero hrd
  exact ⟨t, hstep, State.read_zero t, hout, hregs⟩

/-- Settles O34: both machines retire the same word, and what they return and hold in rd is a function of it. -/
theorem resultDependsOnOperandsAlone : Obligations.ResultDependsOnOperandsAlone := by
  intro i s s' hi hi' hA hB
  refine ⟨_, _, exec_idle hi i, exec_idle hi' i, ?_, ?_⟩
  · rw [retire_output, retire_output, hA, hB]
  · rw [read_retire, read_retire, hA, hB]

theorem decodeStage_busy {d : Descriptor} {s : State} {r : Record} (ha : admission s.params d = none)
    (hr : s.inflight = some r) : decodeStage d s = .refused .recordInFlight := by
  simp [decodeStage, ha, hr]

/-- A second decode while a record is in flight, by a decode call or as a whole, whatever STAGE_VIOLATION is (R75). -/
theorem step_busy {s : State} {d : Descriptor} {rest : List Input} {r : Record}
    (hp : s.pending = .descriptor d :: rest ∨ s.pending = .decode d :: rest)
    (ha : admission s.params d = none) (hr : s.inflight = some r) : step s = .refused .recordInFlight := by
  rcases hp with hp | hp
  · rw [step_descriptor hp]
    exact runDescriptor_busy (s := { s with pending := rest }) ha hr
  · rw [step_decode hp]
    exact decodeStage_busy (s := { s with pending := rest }) ha hr

/-- Settles O36, from the rules for a busy core. -/
theorem oneRecordInFlight : Obligations.OneRecordInFlight := fun _ _ hr =>
  ⟨fun _ _ ha hp => step_busy hp.symm ((admission_none_iff _ _).mpr ha) hr, exec_busy hr⟩

/-- Settles O37, in each case of `step_cases`. -/
theorem stagesMoveForwardOnly : Obligations.StagesMoveForwardOnly := by
  intro s t h
  cases step_cases h with
  | idle hp ht => subst ht; exact ⟨fun _ => rfl, .inl, fun _ _ hne => absurd hp hne⟩
  | instruction _ _ _ hp _ _ hi ht => simp [hp, hi, ht]
  | decode _ _ hp _ hi ht => simp [hp, hi, ht, State.stage]
  | execute _ _ hp hr hs ht => simp [hp, hr, hs, ht, State.stage]
  | writeBack _ _ _ hp hr hs _ ht => simp [hp, hr, hs, ht]

theorem run_succ_refused {n : Nat} {s : State} {why : Refusal} (h : step s = .refused why) :
    run (n + 1) s = .refused why := by
  rw [run, h]; rfl

/-- Three stage calls with no record in flight, on a descriptor that may be presented. -/
theorem run_three_stages_idle {s : State} {d : Descriptor} {rest : List Input}
    (hp : s.pending = .decode d :: .execute :: .writeBack :: rest) (ha : admission s.params d = none)
    (hi : s.inflight = none) :
    run 3 s = .next (retire d.rd (opFn d.op (operandA d s.regs) (operandB d s.regs)) { s with pending := rest }) := by
  rw [run_succ_next (step_decode_idle hp ha hi),
    run_succ_next (step_execute_decoded rfl rfl (snapshot_stage _ _)),
    run_succ_next (step_writeBack_executed rfl rfl (executed_stage _) (executed_result _))]
  rfl

/-- Settles O39: decode is the only one of the three stages that can stop here, and it stops the whole instruction with
the same refusal. -/
theorem threeStagesAreOneInstruction : Obligations.ThreeStagesAreOneInstruction := by
  intro s t d rest hp ht
  have hpt : t.pending = .descriptor d :: rest := by rw [ht]
  have hparams : t.params = s.params := by rw [ht]
  have hinflight : t.inflight = s.inflight := by rw [ht]
  match ha : admission s.params d, hi : s.inflight with
  | some why, _ =>
    rw [run_succ_refused (step_refused (.inr hp) ha), step_refused (.inl hpt) (hparams ▸ ha)]
  | none, some r =>
    rw [run_succ_refused (step_busy (.inr hp) ha hi), step_busy (.inl hpt) (hparams ▸ ha) (hinflight.trans hi)]
  | none, none =>
    rw [run_three_stages_idle hp ha hi, step_descriptor_idle hpt (hparams ▸ ha) (hinflight.trans hi), ht]

theorem tableWord_toNat (w : Word) : tableWord 32 w.toNat = w := by
  rw [tableWord, Nat.mod_eq_of_lt w.isLt, BitVec.ofNat_toNat, BitVec.setWidth_eq]

/-- Settles O49: `step` on a word and on a descriptor, and the word `withFetchWord` puts first. -/
theorem stepRunsDecodedInstruction : Obligations.StepRunsDecodedInstruction := by
  refine ⟨fun s w rest i hp hd => ?word, fun s w i hd => ?fetched, fun s i rest hp => ?descriptor⟩
  case word => exact step_word_ok hp hd
  case fetched =>
    have hp : (s.withFetchWord 32 w.toNat).pending = .word w :: s.pending := by
      rw [withFetchWord_pending, tableWord_toNat]
    exact step_word_ok hp hd
  case descriptor => rw [step_descriptor hp, exec_eq_runDescriptor]

end Sys2Proof.Machine
end

section
/-! Addition, subtraction and the bitwise operations of `41_add_sub_logic.md`: each word by what the spec says of it, and
the instructions of both formats that complete with it. -/

namespace Sys2Proof.Machine

section
variable (a b : Word) (i : Nat)

theorem opFn_add : opFn .add a b = BitVec.ofNat 32 ((a.toNat + b.toNat) % 2 ^ 32) := by
  rw [← BitVec.toNat_add, BitVec.ofNat_toNat, BitVec.setWidth_eq]
  exact addOp_eq a b

/-- The difference as a sum that does not go below 0: the subtrahend is taken from 2^32 first. -/
theorem opFn_sub : opFn .sub a b = BitVec.ofNat 32 ((a.toNat + (2 ^ 32 - b.toNat)) % 2 ^ 32) := by
  rw [Nat.add_comm, ← BitVec.toNat_sub, BitVec.ofNat_toNat, BitVec.setWidth_eq]
  exact subOp_eq a b

theorem getLsbD_opFn_and : (opFn .and a b).getLsbD i = (a.getLsbD i && b.getLsbD i) := BitVec.getLsbD_and

theorem getLsbD_opFn_or : (opFn .or a b).getLsbD i = (a.getLsbD i || b.getLsbD i) := BitVec.getLsbD_or

theorem getLsbD_opFn_xor : (opFn .xor a b).getLsbD i = true ↔ a.getLsbD i ≠ b.getLsbD i := by
  have hbit : (opFn .xor a b).getLsbD i = (a.getLsbD i ^^ b.getLsbD i) := BitVec.getLsbD_xor
  rw [hbit, bne_iff_ne]

end

/-- Settles O1: both formats complete with the word of `opFn_add`. -/
theorem addAndAddiSumModulo : Obligations.AddAndAddiSumModulo := fun _ _ _ _ _ hi =>
  ⟨rfl, rfl, completes_regReg hi rfl (opFn_add _ _), completes_regImm hi rfl rfl (opFn_add _ _)⟩

/-- Settles O2: the instruction completes with the word of `opFn_sub`. -/
theorem subDifferenceModulo : Obligations.SubDifferenceModulo := fun _ _ _ _ hi =>
  ⟨rfl, completes_regReg hi rfl (opFn_sub _ _)⟩

/-- Settles O3: both formats complete with the word whose bits are those of `getLsbD_opFn_and`. -/
theorem andAndAndiBitwise : Obligations.AndAndAndiBitwise := fun _ _ _ _ _ hi =>
  ⟨rfl, rfl, ⟨_, completes_regReg hi rfl rfl, fun k _ => getLsbD_opFn_and _ _ k⟩,
    ⟨_, completes_regImm hi rfl rfl rfl, fun k _ => getLsbD_opFn_and _ _ k⟩⟩

/-- Settles O4: both formats complete with the word whose bits are those of `getLsbD_opFn_or`. -/
theorem orAndOriBitwise : Obligations.OrAndOriBitwise := fun _ _ _ _ _ hi =>
  ⟨rfl, rfl, ⟨_, completes_regReg hi rfl rfl, fun k _ => getLsbD_opFn_or _ _ k⟩,
    ⟨_, completes_regImm hi rfl rfl rfl, fun k _ => getLsbD_opFn_or _ _ k⟩⟩

/-- Settles O5: both formats complete with the word whose bits are those of `getLsbD_opFn_xor`. -/
theorem xorAndXoriBitwise : Obligations.XorAndXoriBitwise := fun _ _ _ _ _ hi =>
  ⟨rfl, rfl, ⟨_, completes_regReg hi rfl rfl, fun k _ => getLsbD_opFn_xor _ _ k⟩,
    ⟨_, completes_regImm hi rfl rfl rfl, fun k _ => getLsbD_opFn_xor _ _ k⟩⟩

end Sys2Proof.Machine
end

section
/-! The shifts of `42_shift.md`: each word in the arithmetic and in the bitwise form of the spec, for the amount
`b mod 32`, and the instructions of both formats that complete with it. -/

namespace Sys2Proof.Machine

section
variable (a b : Word) {i : Nat}

/-- The bits shifted out at the top are lost (R94). -/
theorem toNat_opFn_sll : (opFn .sll a b).toNat = a.toNat * 2 ^ shiftAmount b % 2 ^ 32 := by
  rw [opFn, sllOp_eq, BitVec.toNat_shiftLeft, Nat.shiftLeft_eq]

/-- Zeros enter at bit 0 (R94). -/
theorem getLsbD_opFn_sll (hi : i < 32) :
    (opFn .sll a b).getLsbD i = if shiftAmount b ≤ i then a.getLsbD (i - shiftAmount b) else false := by
  rw [opFn, sllOp_eq, BitVec.getLsbD_shiftLeft]
  by_cases h : shiftAmount b ≤ i
  · simp [hi, h]
  · simp [h, Nat.lt_of_not_le h]

theorem toNat_opFn_srl : (opFn .srl a b).toNat = a.toNat / 2 ^ shiftAmount b := by
  rw [opFn, srlOp_eq, BitVec.toNat_ushiftRight, Nat.shiftRight_eq_div_pow]

/-- Zeros enter at bit 31 (R96): a bit read past the top of `a` is 0. -/
theorem getLsbD_opFn_srl :
    (opFn .srl a b).getLsbD i = if i + shiftAmount b ≤ 31 then a.getLsbD (i + shiftAmount b) else false := by
  rw [opFn, srlOp_eq, BitVec.getLsbD_ushiftRight, Nat.add_comm]
  split
  · rfl
  · exact BitVec.getLsbD_of_ge _ _ (by omega)

/-- Integer division by a positive divisor rounds toward minus infinity, as R98 asks. -/
theorem toInt_opFn_sra : (opFn .sra a b).toInt = a.toInt / 2 ^ shiftAmount b := by
  rw [opFn, sraOp_eq, BitVec.toInt_sshiftRight, Int.shiftRight_eq_div_pow]
  norm_cast

/-- Copies of the sign bit enter at bit 31 (R98). -/
theorem getLsbD_opFn_sra (hi : i < 32) : (opFn .sra a b).getLsbD i =
    if i + shiftAmount b ≤ 31 then a.getLsbD (i + shiftAmount b) else a.getLsbD 31 := by
  rw [opFn, sraOp_eq, BitVec.getLsbD_sshiftRight, Nat.add_comm, BitVec.msb_eq_getLsbD_last]
  simp [hi, Nat.lt_succ_iff]

end

/-- Settles O6: both formats complete with the word of `toNat_opFn_sll` and `getLsbD_opFn_sll`. -/
theorem sllAndSlliShiftLeft : Obligations.SllAndSlliShiftLeft := fun _ _ _ _ _ hi =>
  ⟨rfl, rfl, ⟨_, completes_regReg hi rfl rfl, toNat_opFn_sll _ _, fun _ => getLsbD_opFn_sll _ _⟩,
    ⟨_, completes_regImm hi rfl rfl rfl, toNat_opFn_sll _ _, fun _ => getLsbD_opFn_sll _ _⟩⟩

/-- Settles O7: both formats complete with the word of `toNat_opFn_srl` and `getLsbD_opFn_srl`. -/
theorem srlAndSrliShiftRightLogical : Obligations.SrlAndSrliShiftRightLogical := fun _ _ _ _ _ hi =>
  ⟨rfl, rfl, ⟨_, completes_regReg hi rfl rfl, toNat_opFn_srl _ _, fun _ _ => getLsbD_opFn_srl _ _⟩,
    ⟨_, completes_regImm hi rfl rfl rfl, toNat_opFn_srl _ _, fun _ _ => getLsbD_opFn_srl _ _⟩⟩

/-- Settles O8: both formats complete with the word of `toInt_opFn_sra` and `getLsbD_opFn_sra`. -/
theorem sraAndSraiShiftRightArithmetic : Obligations.SraAndSraiShiftRightArithmetic := fun _ _ _ _ _ hi =>
  ⟨rfl, rfl, ⟨_, completes_regReg hi rfl rfl, toInt_opFn_sra _ _, fun _ => getLsbD_opFn_sra _ _⟩,
    ⟨_, completes_regImm hi rfl rfl rfl, toInt_opFn_sra _ _, fun _ => getLsbD_opFn_sra _ _⟩⟩

/-- Settles O19: operands that agree in bits 4:0 give the same shift amount, and the amount decides the outcome. -/
theorem shiftDependsOnLowFiveBits : Obligations.ShiftDependsOnLowFiveBits := by
  intro op a b b' hop hlow
  have hamount : shiftAmount b = shiftAmount b' := by rw [shiftAmount_eq, shiftAmount_eq, hlow]
  exact ⟨opFn_shift_congr hop hamount a, fun s rd rs1 => exec_shiftImm_congr hamount rd rs1 s⟩

end Sys2Proof.Machine
end

section
/-! The comparisons of `43_compare.md`: the instructions of both formats complete with the word that says whether the strict
order of the signed, or of the unsigned, readings holds. -/

namespace Sys2Proof.Machine

/-- Settles O9: both formats complete with the word of `sltOp_eq`. -/
theorem sltAndSltiSignedLess : Obligations.SltAndSltiSignedLess := fun _ _ _ _ _ hi =>
  ⟨rfl, rfl, completes_regReg hi rfl (sltOp_eq _ _), completes_regImm hi rfl rfl (sltOp_eq _ _)⟩

/-- Settles O10: both formats complete with the word of `sltuOp_eq`. -/
theorem sltuAndSltiuUnsignedLess : Obligations.SltuAndSltiuUnsignedLess := fun _ _ _ _ _ hi =>
  ⟨rfl, rfl, completes_regReg hi rfl (sltuOp_eq _ _), completes_regImm hi rfl rfl (sltuOp_eq _ _)⟩

end Sys2Proof.Machine
end

section
/-! The multiplier of `44_multiply.md`: the word MUL gives under each reading of the operands, the high half of each
multiply joined to it as the exact 64-bit product, and the relations among the high halves (R109). -/

namespace Sys2Proof.Machine

/-- The low half is bits 31:0 of the 64-bit two's-complement form (R105). -/
theorem w32_eq_extractLsb' (p : Int) : w32 p = (BitVec.ofInt 64 p).extractLsb' 0 32 := by
  apply BitVec.eq_of_toNat_eq
  zify
  rw [toNat_w32, BitVec.extractLsb'_toNat, BitVec.toNat_ofInt, Nat.shiftRight_zero]
  omega

theorem highHalf_append_w32 (p : Int) : highHalf p ++ w32 p = BitVec.ofInt 64 p := by
  rw [highHalf_eq, w32_eq_extractLsb']
  exact (BitVec.extractLsb'_append_extractLsb'_eq_extractLsb' (start₁ := 0) rfl).trans BitVec.extractLsb'_eq_self

theorem highHalf_add_mul (p k : Int) : highHalf (p + 4294967296 * k) = highHalf p + w32 k := by
  rw [highHalf, Int.add_mul_ediv_left p k (by decide), w32, BitVec.ofInt_add]
  rfl

theorem sval_eq_sub (b : Word) : sval b = uval b - if b.getLsbD 31 then 4294967296 else 0 := by
  rw [sval, BitVec.msb_eq_getLsbD_last]
  cases b.getLsbD 31 <;> simp

/-- The idea of R109: reading `b` as signed, where its bit 31 is set, takes the other factor from the high half. -/
theorem highHalf_mul_sval (m : Int) (b : Word) :
    highHalf (m * sval b) = highHalf (m * uval b) - if b.getLsbD 31 then w32 m else 0#32 := by
  rw [sval_eq_sub]
  split
  · have h : m * (uval b - 4294967296) = m * uval b + 4294967296 * -m := by ring
    rw [h, highHalf_add_mul, w32, BitVec.ofInt_neg, BitVec.sub_eq_add_neg]
    rfl
  · rw [sub_zero, BitVec.sub_zero]

section
variable (a b : Word)

theorem toNat_opFn_mul : (opFn .mul a b).toNat = a.toNat * b.toNat % 2 ^ 32 := by
  rw [opFn, mulOp_eq, BitVec.toNat_mul]

theorem opFn_mul_signed : opFn .mul a b = w32 (a.toInt * b.toInt) := by
  rw [opFn, mulOp_eq, w32, BitVec.ofInt_mul, BitVec.ofInt_toInt, BitVec.ofInt_toInt]

theorem opFn_mul_signed_unsigned : opFn .mul a b = w32 (a.toInt * b.toNat) := by
  rw [opFn, mulOp_eq, w32, BitVec.ofInt_mul, BitVec.ofInt_toInt, BitVec.ofInt_natCast, BitVec.ofNat_toNat,
    BitVec.setWidth_eq]

theorem opFn_mulh : opFn .mulh a b = highHalf (a.toInt * b.toInt) := by
  rw [opFn, mulhOp, sval_eq_toInt, sval_eq_toInt]

theorem opFn_mulhsu : opFn .mulhsu a b = highHalf (a.toInt * b.toNat) := by
  rw [opFn, mulhsuOp, sval_eq_toInt, uval_eq_toNat]

/-- `{MULHU, MUL}` is the unsigned product, which fits 64 bits (R108). -/
theorem toNat_mulhu_append_mul : (opFn .mulhu a b ++ opFn .mul a b).toNat = a.toNat * b.toNat := by
  have hfits : a.toNat * b.toNat < 2 ^ 64 := BitVec.toNat_mul_toNat_lt
  have hjoin : opFn .mulhu a b ++ opFn .mul a b = BitVec.ofInt 64 (uval a * uval b) := highHalf_append_w32 _
  rw [hjoin, uval_eq_toNat, uval_eq_toNat, ← Nat.cast_mul, BitVec.ofInt_natCast, BitVec.toNat_ofNat,
    Nat.mod_eq_of_lt hfits]

/-- `{MULH, MUL}` is the signed product, which fits 64 bits (R106). -/
theorem toInt_mulh_append_mul : (opFn .mulh a b ++ opFn .mul a b).toInt = a.toInt * b.toInt := by
  have hle : a.toInt * b.toInt ≤ 2 ^ 62 := BitVec.toInt_mul_toInt_le
  have hge : -2 ^ 62 ≤ a.toInt * b.toInt := BitVec.le_toInt_mul_toInt
  rw [opFn_mulh, opFn_mul_signed, highHalf_append_w32]
  exact BitVec.toInt_ofInt_eq_self (by decide) (by omega) (by omega)

/-- `{MULHSU, MUL}` is the product of signed `a` and unsigned `b`, which fits 64 bits (R107). -/
theorem toInt_mulhsu_append_mul : (opFn .mulhsu a b ++ opFn .mul a b).toInt = a.toInt * b.toNat := by
  have hb : b.toNat < 2 ^ 32 := b.isLt
  have hle : a.toInt * b.toNat ≤ 2 ^ 31 * b.toNat :=
    mul_le_mul_of_nonneg_right BitVec.toInt_lt.le (Int.natCast_nonneg _)
  have hge : -2 ^ 31 * b.toNat ≤ a.toInt * b.toNat :=
    mul_le_mul_of_nonneg_right a.le_toInt (Int.natCast_nonneg _)
  rw [opFn_mulhsu, opFn_mul_signed_unsigned, highHalf_append_w32]
  exact BitVec.toInt_ofInt_eq_self (by decide) (by omega) (by omega)

/-- MULHSU from MULHU: the factor read as signed is `a` (R109). -/
theorem opFn_mulhsu_eq_sub :
    opFn .mulhsu a b = opFn .mulhu a b - if a.getLsbD 31 then b else 0#32 := by
  have h := highHalf_mul_sval (uval b) a
  rwa [w32_uval, mul_comm _ (sval a), mul_comm _ (uval a)] at h

/-- MULH from MULHSU: the factor read as signed is now `b` too (R109). -/
theorem opFn_mulh_eq_sub : opFn .mulh a b = opFn .mulhsu a b - if b.getLsbD 31 then a else 0#32 := by
  have h := highHalf_mul_sval (sval a) b
  rwa [w32_sval] at h

end

/-- Settles O11: the instruction completes with the word of `toNat_opFn_mul`, `opFn_mul_signed` and
`opFn_mul_signed_unsigned`. -/
theorem mulLowHalfOfProduct : Obligations.MulLowHalfOfProduct := fun _ _ _ _ hi =>
  ⟨rfl, _, completes_regReg hi rfl rfl, toNat_opFn_mul _ _, opFn_mul_signed _ _, opFn_mul_signed_unsigned _ _⟩

/-- Settles O12: the product is `{MULH, MUL}`, and its bits 63:32 are the word the instruction completes with. -/
theorem mulhHighHalfSigned : Obligations.MulhHighHalfSigned := fun _ _ _ _ hi =>
  ⟨rfl, _, toInt_mulh_append_mul _ _, completes_regReg hi rfl BitVec.extractLsb'_append_eq_left.symm⟩

/-- Settles O13: the product is `{MULHSU, MUL}`, and its bits 63:32 are the word the instruction completes with. -/
theorem mulhsuHighHalfSignedUnsigned : Obligations.MulhsuHighHalfSignedUnsigned := fun _ _ _ _ hi =>
  ⟨rfl, _, toInt_mulhsu_append_mul _ _, completes_regReg hi rfl BitVec.extractLsb'_append_eq_left.symm⟩

/-- Settles O14: the product is `{MULHU, MUL}`, and its bits 63:32 are the word the instruction completes with. -/
theorem mulhuHighHalfUnsigned : Obligations.MulhuHighHalfUnsigned := fun _ _ _ _ hi =>
  ⟨rfl, _, toNat_mulhu_append_mul _ _, completes_regReg hi rfl BitVec.extractLsb'_append_eq_left.symm⟩

/-- Settles O21: MULHSU is not symmetric at `0xFFFFFFFF` and `1`, as the corner case of R107 says. -/
theorem multiplierRelations : Obligations.MultiplierRelations := by
  intro a b
  refine ⟨?mulh, opFn_mulhsu_eq_sub a b, ?mul_symm, ?mulh_symm, ?mulhu_symm, toNat_mulhu_append_mul a b,
    toInt_mulh_append_mul a b, toInt_mulhsu_append_mul a b, ?mulhsu_asymm⟩
  case mulh => rw [opFn_mulh_eq_sub, opFn_mulhsu_eq_sub]
  case mul_symm => exact congrArg w32 (mul_comm _ _)
  case mulh_symm => exact congrArg highHalf (mul_comm _ _)
  case mulhu_symm => exact congrArg highHalf (mul_comm _ _)
  case mulhsu_asymm => exact ⟨0xFFFFFFFF#32, 1#32, by decide⟩

end Sys2Proof.Machine
end

section
/-! The divider of `45_divide.md`: the four words as the division operations of the BitVec library, the identity
`q * b + r = a` modulo 2^32 that the sentinels do not break, and the instructions that complete with them. -/

namespace Sys2Proof.Machine

section
variable (a b : Word)

/-- Narrowing the quotient is signed division, the overflow pair included: `w32(2^31) = 0x80000000` (R110). -/
theorem w32_tdiv : w32 (a.toInt.tdiv b.toInt) = a.sdiv b := by
  apply BitVec.eq_of_toInt_eq
  rw [w32, BitVec.toInt_ofInt, BitVec.toInt_sdiv]

theorem w32_tmod : w32 (a.toInt.tmod b.toInt) = a.srem b := by
  rw [w32, ← BitVec.toInt_srem, BitVec.ofInt_toInt]

/-- Of the two sentinels of R110 only the one for a zero divisor differs from signed division. -/
theorem opFn_div : opFn .div a b = if b = 0#32 then 0xFFFFFFFF#32 else a.sdiv b := by
  rw [opFn, divOp_eq, w32_tdiv]
  congr 1
  split
  case isTrue h => obtain ⟨rfl, rfl⟩ := h; decide
  case isFalse => rfl

/-- Both special cases of R112 are what the signed remainder gives there. -/
theorem opFn_rem : opFn .rem a b = a.srem b := by
  rw [opFn, remOp_eq, w32_tmod]
  split
  case isTrue hb => rw [hb, BitVec.srem_zero]
  case isFalse =>
    split
    case isTrue h => obtain ⟨rfl, rfl⟩ := h; decide
    case isFalse => rfl

theorem opFn_divu : opFn .divu a b = if b = 0#32 then 0xFFFFFFFF#32 else a / b := by
  rw [opFn, divuOp_eq, BitVec.udiv_def]

/-- The special case of R113 is what the unsigned remainder gives there. -/
theorem opFn_remu : opFn .remu a b = a % b := by
  rw [opFn, remuOp_eq, ← BitVec.umod_def]
  split
  case isTrue hb => rw [hb, BitVec.umod_zero]
  case isFalse => rfl

/-- The identity of the integers, narrowed: no pair is an exception. -/
theorem sdiv_mul_add_srem : a.sdiv b * b + a.srem b = a :=
  calc a.sdiv b * b + a.srem b
      = w32 (a.toInt.tdiv b.toInt) * w32 b.toInt + w32 (a.toInt.tmod b.toInt) := by
        rw [w32_tdiv, w32_tmod, w32, BitVec.ofInt_toInt]
    _ = w32 (a.toInt.tdiv b.toInt * b.toInt + a.toInt.tmod b.toInt) := by
        simp only [w32, BitVec.ofInt_add, BitVec.ofInt_mul]
    _ = a := by rw [Int.tdiv_mul_add_tmod, w32, BitVec.ofInt_toInt]

theorem udiv_mul_add_umod : a / b * b + a % b = a := by
  apply BitVec.eq_of_toNat_eq
  rw [BitVec.toNat_add, BitVec.toNat_mul, BitVec.toNat_udiv, BitVec.toNat_umod, Nat.mod_add_mod, Nat.div_add_mod',
    Nat.mod_eq_of_lt a.isLt]

/-- For a zero divisor the product term is 0 and the remainder is `a` (R115). -/
theorem opFn_div_mul_add_rem : opFn .div a b * b + opFn .rem a b = a := by
  rw [opFn_div, opFn_rem]
  split
  case isTrue hb => rw [hb, BitVec.mul_zero, BitVec.zero_add, BitVec.srem_zero]
  case isFalse => exact sdiv_mul_add_srem a b

theorem opFn_divu_mul_add_remu : opFn .divu a b * b + opFn .remu a b = a := by
  rw [opFn_divu, opFn_remu]
  split
  case isTrue hb => rw [hb, BitVec.mul_zero, BitVec.zero_add, BitVec.umod_zero]
  case isFalse => exact udiv_mul_add_umod a b

variable {a b}

/-- Outside the two special cases the quotient is representable (R110). -/
theorem toInt_opFn_div (hb : b ≠ 0#32) (hover : ¬(a = 0x80000000#32 ∧ b = 0xFFFFFFFF#32)) :
    (opFn .div a b).toInt = a.toInt.tdiv b.toInt := by
  rw [opFn_div, if_neg hb]
  exact BitVec.toInt_sdiv_of_ne_or_ne a b (not_and_or.mp hover)

theorem toInt_opFn_rem : (opFn .rem a b).toInt = a.toInt.tmod b.toInt := by
  rw [opFn_rem, BitVec.toInt_srem]

theorem toNat_opFn_divu (hb : b ≠ 0#32) : (opFn .divu a b).toNat = a.toNat / b.toNat := by
  rw [opFn_divu, if_neg hb, BitVec.toNat_udiv]

theorem toNat_opFn_remu : (opFn .remu a b).toNat = a.toNat % b.toNat := by
  rw [opFn_remu, BitVec.toNat_umod]

end

/-- Settles O15: the instruction completes with the word of `divOp_eq`. -/
theorem divSignedQuotient : Obligations.DivSignedQuotient := fun _ _ _ _ hi =>
  ⟨rfl, completes_regReg hi rfl (divOp_eq _ _)⟩

/-- Settles O16: the instruction completes with the word of `divuOp_eq`. -/
theorem divuUnsignedQuotient : Obligations.DivuUnsignedQuotient := fun _ _ _ _ hi =>
  ⟨rfl, completes_regReg hi rfl (divuOp_eq _ _)⟩

/-- Settles O17: the instruction completes with the word of `remOp_eq`, the remainder written out by the quotient. -/
theorem remSignedRemainder : Obligations.RemSignedRemainder := by
  intro s rd rs1 rs2 hi
  rw [mul_comm, ← Int.tmod_def]
  exact ⟨rfl, completes_regReg hi rfl (remOp_eq _ _)⟩

/-- Settles O18: the instruction completes with the word of `remuOp_eq`, the remainder written out by the quotient. -/
theorem remuUnsignedRemainder : Obligations.RemuUnsignedRemainder := by
  intro s rd rs1 rs2 hi
  rw [← Nat.mod_eq_sub_div_mul]
  exact ⟨rfl, completes_regReg hi rfl (remuOp_eq _ _)⟩

/-- Settles O20: where the quotient is representable the laws are those of integer division rounded toward zero. -/
theorem divisionLaws : Obligations.DivisionLaws := by
  intro a b
  refine ⟨fun hb hover => ?signed, fun hb => ?unsigned, opFn_div_mul_add_rem a b, opFn_divu_mul_add_remu a b⟩
  case signed =>
    rw [toInt_opFn_div hb hover, toInt_opFn_rem]
    refine ⟨Int.tdiv_mul_add_tmod _ _, ?magnitude, ?sign⟩
    case magnitude =>
      have hpos : 0 < b.toInt.natAbs := Int.natAbs_pos.mpr (BitVec.toInt_ne.mpr hb)
      rw [Int.natAbs_tmod]
      exact Nat.mod_lt _ hpos
    case sign =>
      by_cases hdvd : b.toInt ∣ a.toInt
      · exact .inl (Int.tmod_eq_zero_of_dvd hdvd)
      · exact .inr (by rw [Int.sign_tmod, if_neg hdvd])
  case unsigned =>
    have hpos : 0 < b.toNat := Nat.pos_of_ne_zero (BitVec.toNat_ne.mp hb)
    rw [toNat_opFn_divu hb, toNat_opFn_remu]
    exact ⟨Nat.div_add_mod' _ _, Nat.mod_lt _ hpos⟩

end Sys2Proof.Machine
end

section
/-! The exceptions of `60_exceptions.md`: the core raises none, a fault is the parameter's answer to a broken stage order,
and a core with nothing presented is idle. -/

namespace Sys2Proof.Machine

/-- Settles O48: an idle step is a case of its own in `step`. -/
theorem idleCoreHoldsItsState : Obligations.IdleCoreHoldsItsState := fun _ hp => step_idle hp

/-- A decode call goes on or is refused: at the boundary, or because a record is in flight. -/
theorem decodeStage_ne_fault (d : Descriptor) (s : State) (f : Fault) : decodeStage d s ≠ .fault f := by
  match ha : admission s.params d, hi : s.inflight with
  | some why, _ => rw [decodeStage_refused ha]; nofun
  | none, some r => rw [decodeStage_busy ha hi]; nofun
  | none, none => rw [decodeStage_idle ha hi]; nofun

/-- A whole instruction makes its stage calls in order, so only its decode can stop it. -/
theorem runDescriptor_ne_fault (d : Descriptor) (s : State) (f : Fault) : runDescriptor d s ≠ .fault f := by
  match ha : admission s.params d, hi : s.inflight with
  | some why, _ => rw [runDescriptor_refused ha]; nofun
  | none, some r => rw [runDescriptor_busy ha hi]; nofun
  | none, none => rw [runDescriptor_idle ha hi]; nofun

/-- The set of synchronous exceptions is empty (R143). -/
theorem exec_ne_fault (i : Instr) (s : State) (f : Fault) : exec i s ≠ .fault f := by
  rw [exec_eq_runDescriptor]
  exact runDescriptor_ne_fault _ s f

section StageFaults
variable {s : State} {f : Fault}

theorem stageViolation_fault {call : StageCall} (h : stageViolation call s = .fault f) :
    s.params.stageViolation = .fault := by
  cases hp : s.params.stageViolation with
  | refuse => simp [stageViolation_eq, hp] at h
  | fault => rfl

/-- In stage Decoded an execute call goes on, so one that faults was out of order. -/
theorem executeStage_fault (h : executeStage s = .fault f) : s.params.stageViolation = .fault := by
  by_cases hst : s.stage = some .decoded
  · obtain ⟨r, hr, hs⟩ := State.stage_eq_some.mp hst
    rw [executeStage_decoded hr hs] at h
    contradiction
  · exact stageViolation_fault (executeStage_outOfOrder hst ▸ h)

/-- In stage Executed a write_back call goes on with the word in the result slot, or finds the slot empty. -/
theorem writeBackStage_fault (h : writeBackStage s = .fault f) : s.params.stageViolation = .fault := by
  by_cases hst : s.stage = some .executed
  · obtain ⟨r, hr, hs⟩ := State.stage_eq_some.mp hst
    cases hv : r.result with
    | some v =>
      rw [writeBackStage_executed hr hs hv] at h
      contradiction
    | none =>
      have hviolation : writeBackStage s = stageViolation .writeBack s := by simp [writeBackStage, hr, hs, hv]
      exact stageViolation_fault (hviolation ▸ h)
  · exact stageViolation_fault (writeBackStage_outOfOrder hst ▸ h)

/-- The inversion of a step that faults: by the input it serves, only the two calls that have an order to break. -/
theorem step_fault (h : step s = .fault f) : s.params.stageViolation = .fault ∧
    (s.pending.head? = some .execute ∨ s.pending.head? = some .writeBack) := by
  match hp : s.pending with
  | [] => rw [step_idle hp] at h; contradiction
  | .word w :: rest =>
    cases hd : decodeWord w with
    | ok i => exact absurd (step_word_ok hp hd ▸ h) (exec_ne_fault _ _ _)
    | error e => rw [step_word_error hp hd] at h; contradiction
  | .descriptor d :: rest => exact absurd (step_descriptor hp ▸ h) (runDescriptor_ne_fault _ _ _)
  | .decode d :: rest => exact absurd (step_decode hp ▸ h) (decodeStage_ne_fault _ _ _)
  | .execute :: rest =>
    rw [step_execute hp] at h
    exact ⟨executeStage_fault (s := { s with pending := rest }) h, .inl rfl⟩
  | .writeBack :: rest =>
    rw [step_writeBack hp] at h
    exact ⟨writeBackStage_fault (s := { s with pending := rest }) h, .inr rfl⟩

end StageFaults

/-- Settles O43: no instruction faults by `exec_ne_fault`, and a step that does is inverted by `step_fault`. -/
theorem noInstructionFaults : Obligations.NoInstructionFaults :=
  ⟨exec_ne_fault, fun _ _ => step_fault⟩

end Sys2Proof.Machine
end

section
/-! The binary layer of `30_encoding.md` read both ways: a row of the opcode map decodes what its format encodes, and a
word that fits a row is the encoding of what the row builds from it. -/

namespace Sys2Proof

/-- The rows exclude each other (`opcodeRowsExclusive`), so a row that a word fits is the row the decoder takes. -/
theorem decodeWord_of_fits {r : Row} (hr : r ∈ rows) {w : Word} (h : r.fits w = true) :
    decodeWord w = .ok (r.build w) := by
  match hd : decodeWord w with
  | .error e =>
    rw [decodeWord_error hd r hr] at h
    contradiction
  | .ok i =>
    obtain ⟨r', hr', h', rfl⟩ := decodeWord_ok hd
    obtain ⟨m, hm, rfl⟩ := List.mem_iff_getElem.mp hr
    obtain ⟨n, hn, rfl⟩ := List.mem_iff_getElem.mp hr'
    have hmn : (⟨m, hm⟩ : Fin rows.length) = ⟨n, hn⟩ := opcodeRowsExclusive.2 w _ _ h h'
    cases hmn
    rfl

section DecodeOfFormat
variable {f7 : BitVec 7} {f3 : BitVec 3} {rd rs1 rs2 : RegIdx} {c : Word}

/-- The pattern of a row is the encoding of its code fields with every operand 0 (R54). -/
theorem decodeWord_encodeR {f : RegIdx → RegIdx → RegIdx → Instr}
    (hr : rowR (encodeR f7 f3 0#5 0#5 0#5) f ∈ rows) : decodeWord (encodeR f7 f3 rd rs1 rs2) = .ok (f rd rs1 rs2) := by
  rw [decodeWord_of_fits hr (Row.fits_iff.mpr (encodeR_mask ..))]
  simp [rowR]

theorem decodeWord_encodeI {f : RegIdx → RegIdx → Word → Instr}
    (hr : rowI (encodeI f3 0#5 0#5 0#32) f ∈ rows) (hc : fitsImm12 c = true) :
    decodeWord (encodeI f3 rd rs1 c) = .ok (f rd rs1 c) := by
  rw [decodeWord_of_fits hr (Row.fits_iff.mpr (encodeI_mask ..))]
  simp [rowI, immOf_encodeI _ _ _ _ hc]

theorem decodeWord_encodeShift {f : RegIdx → RegIdx → Word → Instr}
    (hr : rowShift (encodeShift f7 f3 0#5 0#5 0#32) f ∈ rows) (hc : fitsShamt c = true) :
    decodeWord (encodeShift f7 f3 rd rs1 c) = .ok (f rd rs1 c) := by
  rw [decodeWord_of_fits hr (Row.fits_iff.mpr (encodeShift_mask ..))]
  simp [rowShift, shamtOf_encodeShift _ _ _ _ _ hc]

end DecodeOfFormat

/-- Settles O51: the encoding of each instruction fits the row of its mnemonic, by format. -/
theorem decodeOfEncode : Obligations.DecodeOfEncode := by
  intro i h
  cases i
  case addi | slti | sltiu | xori | ori | andi =>
    exact decodeWord_encodeI (by simp [rows, rowsBase, rowsM, rowsImm, encodeI]) h
  case slli | srli | srai =>
    exact decodeWord_encodeShift (by simp [rows, rowsBase, rowsM, rowsImm, encodeShift]) h
  all_goals exact decodeWord_encodeR (by simp [rows, rowsBase, rowsM, rowsImm, encodeR])

/-- A word in the fields of the I format (R55). -/
theorem append_fields (w : Word) :
    w.extractLsb' 20 12 ++ rs1Of w ++ w.extractLsb' 12 3 ++ rdOf w ++ w.extractLsb' 0 7 = w := by
  have h15 : w.extractLsb' 20 12 ++ w.extractLsb' 15 5 = w.extractLsb' 15 17 :=
    BitVec.extractLsb'_append_extractLsb'_eq_extractLsb' rfl
  have h12 : w.extractLsb' 15 17 ++ w.extractLsb' 12 3 = w.extractLsb' 12 20 :=
    BitVec.extractLsb'_append_extractLsb'_eq_extractLsb' rfl
  have h7 : w.extractLsb' 12 20 ++ w.extractLsb' 7 5 = w.extractLsb' 7 25 :=
    BitVec.extractLsb'_append_extractLsb'_eq_extractLsb' rfl
  have h0 : w.extractLsb' 7 25 ++ w.extractLsb' 0 7 = w.extractLsb' 0 32 :=
    BitVec.extractLsb'_append_extractLsb'_eq_extractLsb' rfl
  rw [rs1Of, rdOf, h15, h12, h7, h0, BitVec.extractLsb'_eq_self]

/-- The 12 bits over rs1 as funct7 and the 5 bits of rs2 or of a shift amount (R54, R55). -/
theorem append_funct7 (w : Word) : w.extractLsb' 25 7 ++ w.extractLsb' 20 5 = w.extractLsb' 20 12 :=
  BitVec.extractLsb'_append_extractLsb'_eq_extractLsb' rfl

theorem extract_sext12 (v : BitVec 12) : (sext12 v).extractLsb' 0 12 = v := by
  ext i hi
  have h32 : i < 32 := by omega
  simp [sext12, BitVec.getElem_signExtend, hi, h32]

theorem extract_zext5 (v : BitVec 5) : (zext5 v).extractLsb' 0 5 = v := by
  ext i hi
  have h32 : i < 32 := by omega
  simp [zext5, hi, h32]

section EncodeOfFields
variable {w q : Word}

theorem encodeR_fields (hopcode : w.extractLsb' 0 7 = 0b0110011#7) :
    encodeR (w.extractLsb' 25 7) (w.extractLsb' 12 3) (rdOf w) (rs1Of w) (rs2Of w) = w := by
  rw [encodeR, rs2Of, append_funct7, ← hopcode, append_fields]

theorem encodeI_fields (hopcode : w.extractLsb' 0 7 = 0b0010011#7) :
    encodeI (w.extractLsb' 12 3) (rdOf w) (rs1Of w) (immOf w) = w := by
  rw [encodeI, immOf, extract_sext12, ← hopcode, append_fields]

theorem encodeShift_fields (hopcode : w.extractLsb' 0 7 = 0b0010011#7) :
    encodeShift (w.extractLsb' 25 7) (w.extractLsb' 12 3) (rdOf w) (rs1Of w) (shamtOf w) = w := by
  rw [encodeShift, shamtOf, extract_zext5, append_funct7, ← hopcode, append_fields]

/-- What `Obligations.EncodeOfDecode` asks of an instruction and the word it was decoded from. -/
abbrev EncodesTo (i : Instr) (w : Word) : Prop := i.wf = true ∧ encode i = w

/-- A row whose pattern carries the opcode of its format and the code fields of its instruction's encoding. -/
theorem encodesTo_rowR {f : RegIdx → RegIdx → RegIdx → Instr}
    (hf : ∀ rd rs1 rs2,
      EncodesTo (f rd rs1 rs2) (encodeR (q.extractLsb' 25 7) (q.extractLsb' 12 3) rd rs1 rs2))
    (hq : q.extractLsb' 0 7 = 0b0110011#7) (h : (rowR q f).fits w = true) : EncodesTo ((rowR q f).build w) w := by
  have hw : w &&& 0xFE00707F#32 = q := Row.fits_iff.mp h
  obtain ⟨hwf, henc⟩ := hf (rdOf w) (rs1Of w) (rs2Of w)
  refine ⟨hwf, henc.trans ?_⟩
  rw [← extract_of_masked hw (by decide), ← extract_of_masked hw (by decide)]
  exact encodeR_fields ((extract_of_masked hw (by decide)).trans hq)

theorem encodesTo_rowI {f : RegIdx → RegIdx → Word → Instr}
    (hf : ∀ rd rs1 c, fitsImm12 c = true → EncodesTo (f rd rs1 c) (encodeI (q.extractLsb' 12 3) rd rs1 c))
    (hq : q.extractLsb' 0 7 = 0b0010011#7) (h : (rowI q f).fits w = true) : EncodesTo ((rowI q f).build w) w := by
  have hw : w &&& 0x0000707F#32 = q := Row.fits_iff.mp h
  obtain ⟨hwf, henc⟩ := hf (rdOf w) (rs1Of w) (immOf w) (fitsImm12_sext12 _)
  refine ⟨hwf, henc.trans ?_⟩
  rw [← extract_of_masked hw (by decide)]
  exact encodeI_fields ((extract_of_masked hw (by decide)).trans hq)

theorem encodesTo_rowShift {f : RegIdx → RegIdx → Word → Instr}
    (hf : ∀ rd rs1 c, fitsShamt c = true →
      EncodesTo (f rd rs1 c) (encodeShift (q.extractLsb' 25 7) (q.extractLsb' 12 3) rd rs1 c))
    (hq : q.extractLsb' 0 7 = 0b0010011#7) (h : (rowShift q f).fits w = true) :
    EncodesTo ((rowShift q f).build w) w := by
  have hw : w &&& 0xFE00707F#32 = q := Row.fits_iff.mp h
  obtain ⟨hwf, henc⟩ := hf (rdOf w) (rs1Of w) (shamtOf w) (fitsShamt_zext5 _)
  refine ⟨hwf, henc.trans ?_⟩
  rw [← extract_of_masked hw (by decide), ← extract_of_masked hw (by decide)]
  exact encodeShift_fields ((extract_of_masked hw (by decide)).trans hq)

end EncodeOfFields

theorem encodesTo_of_rowsBase (w : Word) : ∀ r ∈ rowsBase, r.fits w = true → EncodesTo (r.build w) w := by
  simp only [rowsBase, List.forall_mem_cons]
  refine ⟨?_, ?_, ?_, ?_, ?_, ?_, ?_, ?_, ?_, ?_, by simp⟩ <;>
    exact encodesTo_rowR (fun _ _ _ => ⟨rfl, rfl⟩) rfl

theorem encodesTo_of_rowsM (w : Word) : ∀ r ∈ rowsM, r.fits w = true → EncodesTo (r.build w) w := by
  simp only [rowsM, List.forall_mem_cons]
  refine ⟨?_, ?_, ?_, ?_, ?_, ?_, ?_, ?_, by simp⟩ <;>
    exact encodesTo_rowR (fun _ _ _ => ⟨rfl, rfl⟩) rfl

theorem encodesTo_of_rowsImm (w : Word) : ∀ r ∈ rowsImm, r.fits w = true → EncodesTo (r.build w) w := by
  simp only [rowsImm, List.forall_mem_cons]
  refine ⟨?addi, ?slli, ?slti, ?sltiu, ?xori, ?srli, ?srai, ?ori, ?andi, by simp⟩
  case slli | srli | srai => exact encodesTo_rowShift (fun _ _ _ hc => ⟨hc, rfl⟩) rfl
  all_goals exact encodesTo_rowI (fun _ _ _ hc => ⟨hc, rfl⟩) rfl

/-- Settles O52: a decoded word fits a row, and its mask and fields together hold every bit of the word. -/
theorem encodeOfDecode : Obligations.EncodeOfDecode := by
  intro w i h
  obtain ⟨r, hr, hfits, rfl⟩ := decodeWord_ok h
  simp only [rows, List.mem_append, or_assoc] at hr
  rcases hr with hr | hr | hr
  · exact encodesTo_of_rowsBase w r hr hfits
  · exact encodesTo_of_rowsM w r hr hfits
  · exact encodesTo_of_rowsImm w r hr hfits

/-- Settles O57: each word is the encoding of its instruction, bit for bit, and `decodeOfEncode` reads it back. -/
theorem writtenOutWordsDecode : Obligations.WrittenOutWordsDecode :=
  ⟨decodeOfEncode (.sub 3 1 2) rfl, decodeOfEncode (.addi 1 2 0xFFFFFFFF) rfl, decodeOfEncode (.srai 5 6 31) rfl,
    decodeOfEncode (.sltiu 5 6 1) rfl, decodeOfEncode (.mulhsu 3 1 2) rfl, decodeOfEncode (.rem 3 1 2) rfl⟩

end Sys2Proof
end

section
/-! The hazard rule of `70_reset_and_hazards.md`: what an instruction reads after the one before it has retired. -/

namespace Sys2Proof.Machine

/-- A register read right after write_back: the retired word where it names rd, not x0, and the old word elsewhere. -/
theorem read_after_retire (rd : RegIdx) (v : Word) (s : State) (i : RegIdx) :
    (retire rd v s).read i = if i = rd ∧ rd ≠ 0#5 then v else s.read i := by
  split
  case isTrue h =>
    obtain ⟨rfl, hrd⟩ := h
    exact read_retire_same s i v hrd
  case isFalse h =>
    by_cases hi : i = rd
    · have hrd : rd = 0#5 := of_not_not fun hne => h ⟨hi, hne⟩
      rw [hi, hrd, State.read_zero, State.read_zero]
    · exact read_retire_other s rd v hi

section SecondOperand
variable {d : Descriptor} (f : RegFile)

theorem operandB_of_regReg (h : d.ty = .R) : operandB d f = readReg f (d.c.extractLsb' 0 5) := by
  simp [operandB, h]

theorem operandB_of_regImm (h : d.ty = .I) : operandB d f = d.c := by
  simp [operandB, h]

end SecondOperand

/-- Settles O41: the second instruction runs from the state the first one retired to, and `read_after_retire` says what
its operands are there. -/
theorem nextInstructionReadsTheResult : Obligations.NextInstructionReadsTheResult := by
  intro s i j hi
  refine ⟨_, _, _, _, exec_idle hi i, retires_retire _ _ _, exec_idle (retire_inflight _ _ _) j,
    retires_retire _ _ _, ?_⟩
  congr 1
  case e_a => exact read_after_retire _ _ _ _
  case e_b =>
    cases hty : j.descriptor.ty with
    | R => exact (operandB_of_regReg _ hty).trans (read_after_retire _ _ _ _)
    | I => exact operandB_of_regImm _ hty

end Sys2Proof.Machine
end
